-- ==== Sys2Proof/Word.lean ====
section
/-! DEFINITION. The word types of the CHIP-8 core (spec 00_scope.md R6, R7): every quantity is unsigned. -/

namespace Sys2Proof

/-- A bit-field of four bits: a register number, a key number, a row count, a hexadecimal digit (R8, R92). -/
abbrev Nibble := BitVec 4

/-- A byte: a general register, a timer, a memory cell, the immediate `kk` (R6, R20). -/
abbrev Byte := BitVec 8

/-- The 12-bit address field `nnn` (R8). -/
abbrev Addr12 := BitVec 12

/-- A 16-bit word: `I`, `PC`, a stack entry, an instruction word (R6). -/
abbrev Word := BitVec 16

/-- The number of a general register, 0 to 15 (R20, R92). -/
abbrev Reg := Nibble

/-- `VF`, the register that doubles as the flag (R21). -/
abbrev regVF : Reg := 15#4

end Sys2Proof
end

