-- ==== Sys2Proof/Syntax.lean ====
section
/-! DEFINITION. The 35 instructions of the core, one constructor per row of spec/opcode_table.json
(30_encoding.md R94), with the operand fields the row gives (R91, R92). -/

namespace Sys2Proof

/-- An instruction.  `x` and `y` are register numbers, `kk` an immediate byte, `n` a row count,
`nnn` a 12-bit address (R8).  Constructors stand in the table's order. -/
inductive Instr where
  /-- `00E0` CLS. -/
  | cls
  /-- `00EE` RET. -/
  | ret
  /-- `0nnn` SYS nnn, for every `nnn` but 0x0E0 and 0x0EE (R97). -/
  | sys (nnn : Addr12)
  /-- `1nnn` JP nnn. -/
  | jp (nnn : Addr12)
  /-- `2nnn` CALL nnn. -/
  | call (nnn : Addr12)
  /-- `3xkk` SE Vx, kk. -/
  | seVxKk (x : Reg) (kk : Byte)
  /-- `4xkk` SNE Vx, kk. -/
  | sneVxKk (x : Reg) (kk : Byte)
  /-- `5xy0` SE Vx, Vy. -/
  | seVxVy (x y : Reg)
  /-- `6xkk` LD Vx, kk. -/
  | ldVxKk (x : Reg) (kk : Byte)
  /-- `7xkk` ADD Vx, kk. -/
  | addVxKk (x : Reg) (kk : Byte)
  /-- `8xy0` LD Vx, Vy. -/
  | ldVxVy (x y : Reg)
  /-- `8xy1` OR Vx, Vy. -/
  | orVxVy (x y : Reg)
  /-- `8xy2` AND Vx, Vy. -/
  | andVxVy (x y : Reg)
  /-- `8xy3` XOR Vx, Vy. -/
  | xorVxVy (x y : Reg)
  /-- `8xy4` ADD Vx, Vy. -/
  | addVxVy (x y : Reg)
  /-- `8xy5` SUB Vx, Vy. -/
  | subVxVy (x y : Reg)
  /-- `8xy6` SHR Vx; the field `y` is decoded and ignored (R100). -/
  | shrVx (x y : Reg)
  /-- `8xy7` SUBN Vx, Vy. -/
  | subnVxVy (x y : Reg)
  /-- `8xyE` SHL Vx; the field `y` is decoded and ignored (R100). -/
  | shlVx (x y : Reg)
  /-- `9xy0` SNE Vx, Vy. -/
  | sneVxVy (x y : Reg)
  /-- `Annn` LD I, nnn. -/
  | ldI (nnn : Addr12)
  /-- `Bnnn` JP V0, nnn. -/
  | jpV0 (nnn : Addr12)
  /-- `Cxkk` RND Vx, kk. -/
  | rnd (x : Reg) (kk : Byte)
  /-- `Dxyn` DRW Vx, Vy, n. -/
  | drw (x y : Reg) (n : Nibble)
  /-- `Ex9E` SKP Vx. -/
  | skp (x : Reg)
  /-- `ExA1` SKNP Vx. -/
  | sknp (x : Reg)
  /-- `Fx07` LD Vx, DT. -/
  | ldVxDt (x : Reg)
  /-- `Fx0A` LD Vx, K. -/
  | ldVxK (x : Reg)
  /-- `Fx15` LD DT, Vx. -/
  | ldDtVx (x : Reg)
  /-- `Fx18` LD ST, Vx. -/
  | ldStVx (x : Reg)
  /-- `Fx1E` ADD I, Vx. -/
  | addIVx (x : Reg)
  /-- `Fx29` LD F, Vx. -/
  | ldFVx (x : Reg)
  /-- `Fx33` LD B, Vx. -/
  | ldBVx (x : Reg)
  /-- `Fx55` LD [I], Vx. -/
  | ldMemVx (x : Reg)
  /-- `Fx65` LD Vx, [I]. -/
  | ldVxMem (x : Reg)
  deriving DecidableEq, Repr

end Sys2Proof
end

