-- ==== Sys2Proof/Decode.lean ====
section
/-! DEFINITION. The decode function of 30_encoding.md R95, total on every word and on every list of bytes, and the
encoder of R104.  A word that matches no row of the map is rejected by the name of its family (R98). -/

namespace Sys2Proof

/-- Why a word is no instruction (R98), or why there is no word. -/
inductive DecodeError where
  /-- Fewer than two bytes: an instruction word has two (R90). -/
  | tooShort
  /-- `5xyn` with `n` not 0. -/
  | family5 (op : Word)
  /-- `8xyn` with `n` one of 8, 9, A, B, C, D, F. -/
  | family8 (op : Word)
  /-- `9xyn` with `n` not 0. -/
  | family9 (op : Word)
  /-- `Exkk` with `kk` neither 9E nor A1. -/
  | familyE (op : Word)
  /-- `Fxkk` with `kk` none of 07, 0A, 15, 18, 1E, 29, 33, 55, 65. -/
  | familyF (op : Word)
  deriving DecidableEq, Repr

/-- `op[15:12]` (R92). -/
def fieldFamily (op : Word) : Nibble := op.extractLsb' 12 4

/-- `x = op[11:8]` (R92). -/
def fieldX (op : Word) : Reg := op.extractLsb' 8 4

/-- `y = op[7:4]` (R92). -/
def fieldY (op : Word) : Reg := op.extractLsb' 4 4

/-- `n = op[3:0]` (R92). -/
def fieldN (op : Word) : Nibble := op.extractLsb' 0 4

/-- `kk = op[7:0]` (R92). -/
def fieldKK (op : Word) : Byte := op.extractLsb' 0 8

/-- `nnn = op[11:0]` (R92). -/
def fieldNNN (op : Word) : Addr12 := op.extractLsb' 0 12

/-- The whole-word key of family 0 (R95): two fixed words, every other one SYS. -/
def decodeFamily0 (op : Word) : Instr :=
  if op = 0x00E0#16 then .cls else if op = 0x00EE#16 then .ret else .sys (fieldNNN op)

/-- Family 8, keyed by the low nibble (R95). -/
def decodeFamily8 (op : Word) : Except DecodeError Instr :=
  match (fieldN op).toNat with
  | 0x0 => .ok (.ldVxVy (fieldX op) (fieldY op))
  | 0x1 => .ok (.orVxVy (fieldX op) (fieldY op))
  | 0x2 => .ok (.andVxVy (fieldX op) (fieldY op))
  | 0x3 => .ok (.xorVxVy (fieldX op) (fieldY op))
  | 0x4 => .ok (.addVxVy (fieldX op) (fieldY op))
  | 0x5 => .ok (.subVxVy (fieldX op) (fieldY op))
  | 0x6 => .ok (.shrVx (fieldX op) (fieldY op))
  | 0x7 => .ok (.subnVxVy (fieldX op) (fieldY op))
  | 0xE => .ok (.shlVx (fieldX op) (fieldY op))
  | _ => .error (.family8 op)

/-- Family E, keyed by the low byte (R95). -/
def decodeFamilyE (op : Word) : Except DecodeError Instr :=
  match (fieldKK op).toNat with
  | 0x9E => .ok (.skp (fieldX op))
  | 0xA1 => .ok (.sknp (fieldX op))
  | _ => .error (.familyE op)

/-- Family F, keyed by the low byte (R95). -/
def decodeFamilyF (op : Word) : Except DecodeError Instr :=
  match (fieldKK op).toNat with
  | 0x07 => .ok (.ldVxDt (fieldX op))
  | 0x0A => .ok (.ldVxK (fieldX op))
  | 0x15 => .ok (.ldDtVx (fieldX op))
  | 0x18 => .ok (.ldStVx (fieldX op))
  | 0x1E => .ok (.addIVx (fieldX op))
  | 0x29 => .ok (.ldFVx (fieldX op))
  | 0x33 => .ok (.ldBVx (fieldX op))
  | 0x55 => .ok (.ldMemVx (fieldX op))
  | 0x65 => .ok (.ldVxMem (fieldX op))
  | _ => .error (.familyF op)

/-- The decode function of R95, keyed by the high nibble. -/
def decodeWord (op : Word) : Except DecodeError Instr :=
  match (fieldFamily op).toNat with
  | 0x0 => .ok (decodeFamily0 op)
  | 0x1 => .ok (.jp (fieldNNN op))
  | 0x2 => .ok (.call (fieldNNN op))
  | 0x3 => .ok (.seVxKk (fieldX op) (fieldKK op))
  | 0x4 => .ok (.sneVxKk (fieldX op) (fieldKK op))
  | 0x5 => if fieldN op = 0#4 then .ok (.seVxVy (fieldX op) (fieldY op)) else .error (.family5 op)
  | 0x6 => .ok (.ldVxKk (fieldX op) (fieldKK op))
  | 0x7 => .ok (.addVxKk (fieldX op) (fieldKK op))
  | 0x8 => decodeFamily8 op
  | 0x9 => if fieldN op = 0#4 then .ok (.sneVxVy (fieldX op) (fieldY op)) else .error (.family9 op)
  | 0xA => .ok (.ldI (fieldNNN op))
  | 0xB => .ok (.jpV0 (fieldNNN op))
  | 0xC => .ok (.rnd (fieldX op) (fieldKK op))
  | 0xD => .ok (.drw (fieldX op) (fieldY op) (fieldN op))
  | 0xE => decodeFamilyE op
  | _ => decodeFamilyF op

/-- Two bytes as one big-endian word (20_memory.md R65): the byte at the lower address is the high one. -/
def wordOfBytes (hi lo : Byte) : Word := hi ++ lo

/-- Decode the instruction at the front of a list of bytes and give the bytes that follow it (R90). -/
def decode : List Byte → Except DecodeError (Instr × List Byte)
  | hi :: lo :: rest =>
    match decodeWord (wordOfBytes hi lo) with
    | .ok i => .ok (i, rest)
    | .error e => .error e
  | [_] => .error .tooShort
  | [] => .error .tooShort

/-- A word of format XYF or XYN (R91): four hexadecimal digits, the most significant first. -/
def wordXYN (f x y n : Nibble) : Word := f ++ x ++ y ++ n

/-- A word of format XKK or XFF (R91): two digits and a byte. -/
def wordXKK (f x : Nibble) (kk : Byte) : Word := f ++ x ++ kk

/-- A word of format NNN (R91): a digit and a 12-bit field. -/
def wordNNN (f : Nibble) (nnn : Addr12) : Word := f ++ nnn

/-- The instruction word (R94, R104). -/
def encode : Instr → Word
  | .cls => 0x00E0#16
  | .ret => 0x00EE#16
  | .sys nnn => wordNNN 0x0#4 nnn
  | .jp nnn => wordNNN 0x1#4 nnn
  | .call nnn => wordNNN 0x2#4 nnn
  | .seVxKk x kk => wordXKK 0x3#4 x kk
  | .sneVxKk x kk => wordXKK 0x4#4 x kk
  | .seVxVy x y => wordXYN 0x5#4 x y 0x0#4
  | .ldVxKk x kk => wordXKK 0x6#4 x kk
  | .addVxKk x kk => wordXKK 0x7#4 x kk
  | .ldVxVy x y => wordXYN 0x8#4 x y 0x0#4
  | .orVxVy x y => wordXYN 0x8#4 x y 0x1#4
  | .andVxVy x y => wordXYN 0x8#4 x y 0x2#4
  | .xorVxVy x y => wordXYN 0x8#4 x y 0x3#4
  | .addVxVy x y => wordXYN 0x8#4 x y 0x4#4
  | .subVxVy x y => wordXYN 0x8#4 x y 0x5#4
  | .shrVx x y => wordXYN 0x8#4 x y 0x6#4
  | .subnVxVy x y => wordXYN 0x8#4 x y 0x7#4
  | .shlVx x y => wordXYN 0x8#4 x y 0xE#4
  | .sneVxVy x y => wordXYN 0x9#4 x y 0x0#4
  | .ldI nnn => wordNNN 0xA#4 nnn
  | .jpV0 nnn => wordNNN 0xB#4 nnn
  | .rnd x kk => wordXKK 0xC#4 x kk
  | .drw x y n => wordXYN 0xD#4 x y n
  | .skp x => wordXKK 0xE#4 x 0x9E#8
  | .sknp x => wordXKK 0xE#4 x 0xA1#8
  | .ldVxDt x => wordXKK 0xF#4 x 0x07#8
  | .ldVxK x => wordXKK 0xF#4 x 0x0A#8
  | .ldDtVx x => wordXKK 0xF#4 x 0x15#8
  | .ldStVx x => wordXKK 0xF#4 x 0x18#8
  | .addIVx x => wordXKK 0xF#4 x 0x1E#8
  | .ldFVx x => wordXKK 0xF#4 x 0x29#8
  | .ldBVx x => wordXKK 0xF#4 x 0x33#8
  | .ldMemVx x => wordXKK 0xF#4 x 0x55#8
  | .ldVxMem x => wordXKK 0xF#4 x 0x65#8

/-- The high byte of a word, stored at the lower address (R65, R104). -/
def highByte (op : Word) : Byte := op.extractLsb' 8 8

/-- The low byte of a word, stored at the higher address (R65, R104). -/
def lowByte (op : Word) : Byte := op.extractLsb' 0 8

/-- The two bytes of an instruction in the order memory holds them (R104). -/
def encodeBytes (i : Instr) : List Byte := [highByte (encode i), lowByte (encode i)]

/-- One row of the opcode map as spec/opcode_table.json gives it (R94): a word belongs to it when its masked bits
are `pattern` and it is not one of the words excepted (R97). -/
structure OpcodeRow where
  mnemonic : String
  mask : Word
  pattern : Word
  except : List Word
  deriving DecidableEq, Repr

/-- The word belongs to the row. -/
def rowMatches (r : OpcodeRow) (op : Word) : Bool := op &&& r.mask == r.pattern && !r.except.contains op

/-- The rows of families 0 to 7 (R94). -/
def opcodeRowsLow : List OpcodeRow := [
  ⟨"CLS", 0xFFFF#16, 0x00E0#16, []⟩, ⟨"RET", 0xFFFF#16, 0x00EE#16, []⟩,
  ⟨"SYS_nnn", 0xF000#16, 0x0000#16, [0x00E0#16, 0x00EE#16]⟩, ⟨"JP_nnn", 0xF000#16, 0x1000#16, []⟩,
  ⟨"CALL_nnn", 0xF000#16, 0x2000#16, []⟩, ⟨"SE_Vx__kk", 0xF000#16, 0x3000#16, []⟩,
  ⟨"SNE_Vx__kk", 0xF000#16, 0x4000#16, []⟩, ⟨"SE_Vx__Vy", 0xF00F#16, 0x5000#16, []⟩,
  ⟨"LD_Vx__kk", 0xF000#16, 0x6000#16, []⟩, ⟨"ADD_Vx__kk", 0xF000#16, 0x7000#16, []⟩]

/-- The rows of family 8 (R94). -/
def opcodeRows8 : List OpcodeRow := [
  ⟨"LD_Vx__Vy", 0xF00F#16, 0x8000#16, []⟩, ⟨"OR_Vx__Vy", 0xF00F#16, 0x8001#16, []⟩,
  ⟨"AND_Vx__Vy", 0xF00F#16, 0x8002#16, []⟩, ⟨"XOR_Vx__Vy", 0xF00F#16, 0x8003#16, []⟩,
  ⟨"ADD_Vx__Vy", 0xF00F#16, 0x8004#16, []⟩, ⟨"SUB_Vx__Vy", 0xF00F#16, 0x8005#16, []⟩,
  ⟨"SHR_Vx", 0xF00F#16, 0x8006#16, []⟩, ⟨"SUBN_Vx__Vy", 0xF00F#16, 0x8007#16, []⟩,
  ⟨"SHL_Vx", 0xF00F#16, 0x800E#16, []⟩]

/-- The rows of families 9 to F (R94). -/
def opcodeRowsHigh : List OpcodeRow := [
  ⟨"SNE_Vx__Vy", 0xF00F#16, 0x9000#16, []⟩, ⟨"LD_I__nnn", 0xF000#16, 0xA000#16, []⟩,
  ⟨"JP_V0__nnn", 0xF000#16, 0xB000#16, []⟩, ⟨"RND_Vx__kk", 0xF000#16, 0xC000#16, []⟩,
  ⟨"DRW_Vx__Vy__n", 0xF000#16, 0xD000#16, []⟩, ⟨"SKP_Vx", 0xF0FF#16, 0xE09E#16, []⟩,
  ⟨"SKNP_Vx", 0xF0FF#16, 0xE0A1#16, []⟩, ⟨"LD_Vx__DT", 0xF0FF#16, 0xF007#16, []⟩,
  ⟨"LD_Vx__K", 0xF0FF#16, 0xF00A#16, []⟩, ⟨"LD_DT__Vx", 0xF0FF#16, 0xF015#16, []⟩,
  ⟨"LD_ST__Vx", 0xF0FF#16, 0xF018#16, []⟩, ⟨"ADD_I__Vx", 0xF0FF#16, 0xF01E#16, []⟩,
  ⟨"LD_F__Vx", 0xF0FF#16, 0xF029#16, []⟩, ⟨"LD_B__Vx", 0xF0FF#16, 0xF033#16, []⟩,
  ⟨"LD__I___Vx", 0xF0FF#16, 0xF055#16, []⟩, ⟨"LD_Vx___I", 0xF0FF#16, 0xF065#16, []⟩]

/-- The opcode map, 35 rows in the table's order (R94). -/
def opcodeRows : List OpcodeRow := opcodeRowsLow ++ opcodeRows8 ++ opcodeRowsHigh

/-- The mnemonic of the table's row an instruction belongs to (R94). -/
def mnemonicOf : Instr → String
  | .cls => "CLS"
  | .ret => "RET"
  | .sys _ => "SYS_nnn"
  | .jp _ => "JP_nnn"
  | .call _ => "CALL_nnn"
  | .seVxKk _ _ => "SE_Vx__kk"
  | .sneVxKk _ _ => "SNE_Vx__kk"
  | .seVxVy _ _ => "SE_Vx__Vy"
  | .ldVxKk _ _ => "LD_Vx__kk"
  | .addVxKk _ _ => "ADD_Vx__kk"
  | .ldVxVy _ _ => "LD_Vx__Vy"
  | .orVxVy _ _ => "OR_Vx__Vy"
  | .andVxVy _ _ => "AND_Vx__Vy"
  | .xorVxVy _ _ => "XOR_Vx__Vy"
  | .addVxVy _ _ => "ADD_Vx__Vy"
  | .subVxVy _ _ => "SUB_Vx__Vy"
  | .shrVx _ _ => "SHR_Vx"
  | .subnVxVy _ _ => "SUBN_Vx__Vy"
  | .shlVx _ _ => "SHL_Vx"
  | .sneVxVy _ _ => "SNE_Vx__Vy"
  | .ldI _ => "LD_I__nnn"
  | .jpV0 _ => "JP_V0__nnn"
  | .rnd _ _ => "RND_Vx__kk"
  | .drw _ _ _ => "DRW_Vx__Vy__n"
  | .skp _ => "SKP_Vx"
  | .sknp _ => "SKNP_Vx"
  | .ldVxDt _ => "LD_Vx__DT"
  | .ldVxK _ => "LD_Vx__K"
  | .ldDtVx _ => "LD_DT__Vx"
  | .ldStVx _ => "LD_ST__Vx"
  | .addIVx _ => "ADD_I__Vx"
  | .ldFVx _ => "LD_F__Vx"
  | .ldBVx _ => "LD_B__Vx"
  | .ldMemVx _ => "LD__I___Vx"
  | .ldVxMem _ => "LD_Vx___I"

/-- The instruction word whose bits are `w`, when the table gives its row `nbits` bits.  Every row has 16
(R90), so the two bytes are the word's high byte and its low byte, in memory order (R65). -/
def tableWord (nbits w : Nat) : Word := BitVec.ofNat 16 (w % 2 ^ nbits)

/-- What the decoder reads from the table's word `w` of `nbits` bits: its bytes in memory order are given to `decode`. -/
def decodeTableWord (nbits w : Nat) : Option Instr :=
  match decode [highByte (tableWord nbits w), lowByte (tableWord nbits w)] with
  | .ok (i, _) => some i
  | .error _ => none

end Sys2Proof
end

