-- ==== Sys2Proof/Config.lean ====
section
/-! DEFINITION. What this hardware fixes (spec 00_scope.md R6) and the one free value of the model. -/

namespace Sys2Proof.Config

/-- `MEM_SIZE`: 4096 bytes, addresses 0 to 4095 (R6, R60). -/
abbrev memSize : Nat := 4096

/-- The highest legal address (R64). -/
abbrev lastAddr : Nat := 4095

/-- `PROGRAM_BASE` (R6): where an image is loaded and where `PC` starts. -/
abbrev programBase : Nat := 0x200

/-- `MAX_IMAGE`: the most bytes an image may have (R6, R262). -/
abbrev maxImage : Nat := 3584

/-- `FONT_BASE` (R6). -/
abbrev fontBase : Nat := 0x050

/-- `GLYPH_SIZE` (R6). -/
abbrev glyphSize : Nat := 5

/-- The bytes of the font region, 16 glyphs of 5 bytes (R6, R69). -/
abbrev fontSize : Nat := 80

/-- `STACK_DEPTH` (R6). -/
abbrev stackDepth : Nat := 16

/-- `RND` (00_scope.md R6, 10_state.md R36): the byte the host supplies at draw number `k`.  A FREE VALUE: it has
no body, so nothing can be proved of it, and what is proved holds for every sequence of bytes (log entry 2). -/
opaque rndByte : Nat → Byte

end Sys2Proof.Config
end

