-- ==== Sys2Proof/Machine/State.lean ====
section
/-! DEFINITION. The state of the core as plain data: everything 10_state.md R20 to R34 gives the machine, the
fault kinds, the refusals, and the state after Reset (R42). -/

namespace Sys2Proof.Machine

/-- The four fault kinds (60_exceptions.md R221).  A kind is what the latch FAULT holds (R33) and what a Step reports
(R220).  A Step that raises a fault is a NEXT state with the latch set (R226); the outcome `fault` of `step` is the
report of a Step of a core that was halted already, which changes nothing (R220, R228; log entry 1). -/
inductive Fault where
  /-- Code 1, raised by CALL when SP = 16 (R222).  Safe: the spec halts the core there. -/
  | stackOverflow
  /-- Code 2, raised by RET when SP = 0 (R224).  Safe: the spec halts the core there. -/
  | stackUnderflow
  /-- Code 3, raised by a Step whose word matches no row of the opcode map (R223).  Safe: the spec halts the core there. -/
  | illegalInstruction
  /-- Code 4, raised by the fetch when PC > 4094 and by DRW, LD B, LD [I], LD Vx,[I] when an address exceeds 4095
  (R225).  Safe: the spec halts the core there. -/
  | memoryOutOfRange
  deriving DecidableEq, Repr

/-- Why the model has no meaning for an instruction.  Every instruction has one, so no Step is refused. -/
inductive Refusal where
  /-- An arm of `exec` with no meaning yet; raised by `exec` alone, and by no arm now.  Safe: nothing is claimed. -/
  | notModelled (mnemonic : String)
  deriving DecidableEq, Repr

/-- WAIT, the pending-key-wait register (R30). -/
inductive KeyWait where
  /-- No key is being waited for. -/
  | idle
  /-- Key `k` was seen down and its release is awaited. -/
  | keyCaptured (k : Nibble)
  deriving DecidableEq, Repr

/-- The listed part of MEM: cells in rising order of address, none equal to what an unlisted address reads as. -/
abbrev Memory := List Host.Cell

/-- DISP: 32 rows of 64 one-bit pixels, row-major (R28); `true` is a lit pixel. -/
abbrev Display := Vector (Vector Bool 64) 32

/-- The state of the core (R20 to R34; INVENTORY.md lists each piece with its rule). -/
structure State where
  /-- `V[0]` to `V[15]` (R20); `V[15]` is `VF` (R21). -/
  v : Vector Byte 16
  /-- The index register `I` (R22). -/
  i : Word
  /-- The program counter `PC` (R23). -/
  pc : Word
  /-- `SP`, the number of stack entries in use, 0 to 16 (R24). -/
  sp : Fin 17
  /-- `STACK[0]` to `STACK[15]` (R24). -/
  stack : Vector Word 16
  /-- The delay timer `DT` (R25). -/
  dt : Byte
  /-- The sound timer `ST` (R26). -/
  st : Byte
  /-- The display bitmap `DISP` (R28). -/
  disp : Display
  /-- The dirty flag `DIRTY` (R29). -/
  dirty : Bool
  /-- The pending-key-wait register `WAIT` (R30). -/
  wait : KeyWait
  /-- The fault latch `FAULT` (R33); `none` is the kind None. -/
  fault : Option Fault
  /-- The keyboard flags `KEYS[0]` to `KEYS[15]` (R34); `true` is down. -/
  keys : Vector Bool 16
  /-- `MEM` (R27), in canonical form. -/
  mem : Memory
  /-- The model's own field: how many RND bytes have been drawn (log entry 2). -/
  draws : Nat
  deriving DecidableEq, Repr

/-- What a meaning and a Step answer. -/
abbrev Result := Host.Outcome State Fault Refusal

/-- The state after Reset with the default FONT and MEM_FILL (R42, R69; log entry 3): memory lists nothing. -/
def State.reset : State where
  v := Vector.replicate 16 0#8
  i := 0#16
  pc := 0x200#16
  sp := 0
  stack := Vector.replicate 16 0#16
  dt := 0#8
  st := 0#8
  disp := Vector.replicate 32 (Vector.replicate 64 false)
  dirty := false
  wait := .idle
  fault := none
  keys := Vector.replicate 16 false
  mem := []
  draws := 0

end Sys2Proof.Machine
end

