-- ==== Sys2Proof/Machine/Ops.lean ====
section
/-! DEFINITION. The named operations over registers, memory, stack and display, the fetch, and taking a fault.
Every instruction's meaning is written with these. -/

namespace Sys2Proof.Machine

/-! ### Registers (10_state.md R20 to R30) -/

/-- `V[x]` (R9, R20). -/
def State.getV (s : State) (x : Reg) : Byte := s.v[x.toNat]

/-- `V[x] <- b` (R9, R20). -/
def State.setV (s : State) (x : Reg) (b : Byte) : State := { s with v := s.v.set x.toNat b }

/-- `I <- w` (R22). -/
def State.setI (s : State) (w : Word) : State := { s with i := w }

/-- `PC <- w` (R23, R120). -/
def State.setPc (s : State) (w : Word) : State := { s with pc := w }

/-- `DT <- b` (R25). -/
def State.setDt (s : State) (b : Byte) : State := { s with dt := b }

/-- `ST <- b` (R26). -/
def State.setSt (s : State) (b : Byte) : State := { s with st := b }

/-- `DIRTY <- b` (R29). -/
def State.setDirty (s : State) (b : Bool) : State := { s with dirty := b }

/-- `WAIT <- w` (R30). -/
def State.setWait (s : State) (w : KeyWait) : State := { s with wait := w }

/-- `DISP <- d` (R28). -/
def State.setDisp (s : State) (d : Display) : State := { s with disp := d }

/-- `MEM <- m` (R27). -/
def State.setMem (s : State) (m : Memory) : State := { s with mem := m }

/-- One RND byte has been drawn (R36; log entry 2). -/
def State.countDraw (s : State) : State := { s with draws := s.draws + 1 }

/-- `PC <- trunc_16(PC + 2)`: the advance before decode and a taken skip (R31, R120). -/
def State.advance (s : State) : State := s.setPc (s.pc + 2#16)

/-- `PC <- PC - 2`: the rewind that makes LD Vx, K repeat (R204). -/
def State.rewind (s : State) : State := s.setPc (s.pc - 2#16)

/-- Skip the next instruction when `c` holds (R120). -/
def State.skipIf (s : State) (c : Bool) : State := if c then s.advance else s

/-- Write `bs` to `V[r]`, `V[r+1]`, ... in ascending order (R176). -/
def State.setRegsFrom (s : State) (r : Nat) : List Byte → State
  | [] => s
  | b :: bs => State.setRegsFrom (s.setV (BitVec.ofNat 4 r) b) (r + 1) bs

/-- `V[0]` to `V[x]`, in ascending order (R175). -/
def State.regsUpTo (s : State) (x : Reg) : List Byte :=
  (List.range (x.toNat + 1)).map fun r => s.getV (BitVec.ofNat 4 r)

/-! ### Faults (60_exceptions.md R226)

There is no return from a fault: no instruction clears the latch and only the host's Reset leaves the halted
state (R228); that event is `State.resetWith` of Sys2Proof/Machine/Events.lean. -/

/-- `raise K`: the latch is set and nothing else changes; the core is halted (R226).  `s` is the state of the phase
the fault is raised in: before the advance for the fetch, after it for decode and execute. -/
def State.raise (s : State) (k : Fault) : State := { s with fault := some k }

/-- The end of a meaning whose effect may be a fault: the effect whole, or the fault alone (R76, R226). -/
def State.orRaise (s : State) : Except Fault State → Result
  | .ok t => .next t
  | .error k => .next (s.raise k)

/-! ### Memory (20_memory.md R60 to R76) -/

/-- Glyphs 0 to 7 of the default FONT (R69). -/
def fontLow : List Byte :=
  [0xF0, 0x90, 0x90, 0x90, 0xF0] ++ [0x20, 0x60, 0x20, 0x20, 0x70] ++ [0xF0, 0x10, 0xF0, 0x80, 0xF0] ++
  [0xF0, 0x10, 0xF0, 0x10, 0xF0] ++ [0x90, 0x90, 0xF0, 0x10, 0x10] ++ [0xF0, 0x80, 0xF0, 0x10, 0xF0] ++
  [0xF0, 0x80, 0xF0, 0x90, 0xF0] ++ [0xF0, 0x10, 0x20, 0x40, 0x40]

/-- Glyphs 8 to F of the default FONT (R69). -/
def fontHigh : List Byte :=
  [0xF0, 0x90, 0xF0, 0x90, 0xF0] ++ [0xF0, 0x90, 0xF0, 0x10, 0xF0] ++ [0xF0, 0x90, 0xF0, 0x90, 0x90] ++
  [0xE0, 0x90, 0xE0, 0x90, 0xE0] ++ [0xF0, 0x80, 0x80, 0x80, 0xF0] ++ [0xE0, 0x90, 0x90, 0x90, 0xE0] ++
  [0xF0, 0x80, 0xF0, 0x80, 0xF0] ++ [0xF0, 0x80, 0xF0, 0x80, 0x80]

/-- The default value of the parameter MEM_FILL (R6, R42). -/
def defaultFill : Byte := 0x00#8

/-- The default value of the parameter FONT (R6, R69). -/
def defaultFont : Vector Byte Config.fontSize :=
  Vector.ofFn fun j => (fontLow ++ fontHigh).getD j.val defaultFill

/-- The contents Reset gives a byte: FONT in 0x050 to 0x09F and MEM_FILL elsewhere (R42, R61, R69). -/
def initialByte (font : Vector Byte Config.fontSize) (fill : Byte) (a : Nat) : Byte :=
  if Config.fontBase ≤ a then font.toList.getD (a - Config.fontBase) fill else fill

/-- What an unlisted address reads as: its contents after Reset with the defaults (R42; log entry 3). -/
def unlistedByte (a : Nat) : Byte :=
  if Config.fontBase ≤ a then (fontLow ++ fontHigh).getD (a - Config.fontBase) defaultFill else defaultFill

/-- The byte at an address. -/
def Memory.read : Memory → Nat → Byte
  | [], a => unlistedByte a
  | c :: m, a => if c.1 = a then c.2 else Memory.read m a

/-- Put a cell before the first cell of a higher address. -/
def Memory.insert (c : Host.Cell) : Memory → Memory
  | [] => [c]
  | d :: m => if c.1 < d.1 then c :: d :: m else d :: Memory.insert c m

/-- The memory with no entry for an address. -/
def Memory.forget (m : Memory) (a : Nat) : Memory := m.filter fun c => c.1 != a

/-- Store a byte at an address and keep the canonical form. -/
def Memory.write (m : Memory) (a : Nat) (b : Byte) : Memory :=
  if b = unlistedByte a then m.forget a else Memory.insert (a, b) (m.forget a)

/-- Store bytes at rising addresses, the first at `a` (R68). -/
def Memory.writeAll (m : Memory) (a : Nat) : List Byte → Memory
  | [] => m
  | b :: bs => Memory.writeAll (m.write a b) (a + 1) bs

/-- A cell the canonical form may list. -/
def cellOk (c : Host.Cell) : Bool := decide (c.1 < Config.memSize) && c.2 != unlistedByte c.1

/-- The canonical form: addresses strictly rising and inside the space, no entry equal to the unlisted value. -/
def Memory.wf : Memory → Bool
  | [] => true
  | c :: m => cellOk c && m.all (fun d => decide (c.1 < d.1)) && Memory.wf m

/-- The memory Reset leaves for any FONT and MEM_FILL (R42, R69), in canonical form. -/
def Memory.initial (font : Vector Byte Config.fontSize) (fill : Byte) : Memory :=
  (List.range Config.memSize).filterMap fun a =>
    if initialByte font fill a = unlistedByte a then none else some (a, initialByte font fill a)

/-- Every one of `count` addresses from `base` upward is at most 4095 (R64, R76); no address, no condition. -/
def rangeLegal (base count : Nat) : Bool := count == 0 || decide (base + count - 1 ≤ Config.lastAddr)

/-- `count` bytes from `base` upward, or MemoryOutOfRange before any access (R62, R64, R76). -/
def State.loadBytes (s : State) (base count : Nat) : Except Fault (List Byte) :=
  if rangeLegal base count then .ok ((List.range count).map fun r => s.mem.read (base + r))
  else .error .memoryOutOfRange

/-- Store `bs` from `base` upward, or MemoryOutOfRange before any access (R63, R64, R76). -/
def State.storeBytes (s : State) (base : Nat) (bs : List Byte) : Except Fault State :=
  if rangeLegal base bs.length then .ok (s.setMem (s.mem.writeAll base bs)) else .error .memoryOutOfRange

/-- The instruction fetch `MemRead(PC, 2)`: two bytes joined big-endian, legal when PC is at most 4094 (R65, R66). -/
def State.fetch (s : State) : Except Fault Word :=
  if s.pc.toNat + 1 ≤ Config.lastAddr then
    .ok (wordOfBytes (s.mem.read s.pc.toNat) (s.mem.read (s.pc.toNat + 1)))
  else .error .memoryOutOfRange

/-- Decode a fetched word; a word that is no instruction is the fault IllegalInstruction (R95, R98, R223). -/
def decodeFetched (op : Word) : Except Fault Instr :=
  match decodeWord op with
  | .ok i => .ok i
  | .error _ => .error .illegalInstruction

/-- The state with the word `op` stored big-endian where the next fetch reads it (R65); unchanged where no fetch is
legal (R66; log entry 5). -/
def State.placeWord (s : State) (op : Word) : State :=
  match s.storeBytes s.pc.toNat [highByte op, lowByte op] with
  | .ok t => t
  | .error _ => s

/-! ### The stack (10_state.md R24) -/

/-- Push: `STACK[SP] <- w; SP <- SP + 1`, or StackOverflow when SP = 16 (R24, R125). -/
def State.push (s : State) (w : Word) : Except Fault State :=
  if h : s.sp.val < 16 then .ok { s with stack := s.stack.set s.sp.val w h, sp := ⟨s.sp.val + 1, by omega⟩ }
  else .error .stackOverflow

/-- Pop into PC: `SP <- SP - 1; PC <- STACK[SP]`, or StackUnderflow when SP = 0 (R24, R122).  The entry stays. -/
def State.popPc (s : State) : Except Fault State :=
  if h : 0 < s.sp.val then .ok { s with sp := ⟨s.sp.val - 1, by omega⟩, pc := s.stack[s.sp.val - 1]'(by omega) }
  else .error .stackUnderflow

/-! ### The keyboard (10_state.md R34) -/

/-- `KEYS[k]`, true for down (R9, R34). -/
def State.keyDown (s : State) (k : Nibble) : Bool := s.keys[k.toNat]

/-- The sixteen key numbers in ascending order (R204). -/
def keyNumbers : List Nibble := (List.range 16).map (BitVec.ofNat 4)

/-- The least key that is down (R204). -/
def State.lowestKeyDown (s : State) : Option Nibble := keyNumbers.find? s.keyDown

/-! ### The display (10_state.md R28, 43_display.md R190) -/

/-- `DISP[px, py]`: column `px`, row `py` (R9, R28). -/
def Display.pixel (d : Display) (px : Fin 64) (py : Fin 32) : Bool := d[py.val][px.val]

/-- The bitmap with pixel `[px, py]` set to `b`. -/
def Display.setPixel (d : Display) (px : Fin 64) (py : Fin 32) (b : Bool) : Display :=
  d.set py.val (d[py.val].set px.val b)

/-- `DISP[px, py] <- DISP[px, py] xor 1` (R192). -/
def Display.flip (d : Display) (px : Fin 64) (py : Fin 32) : Display := d.setPixel px py (!d.pixel px py)

/-- All 2048 pixels 0 (R191). -/
def Display.blank : Display := Vector.replicate 32 (Vector.replicate 64 false)

/-- The column of sprite column `c` for a start column `x0` (R190). -/
def spriteColumn (x0 c : Nat) : Fin 64 := Fin.ofNat 64 (x0 + c)

/-- The row of sprite row `r` for a start row `y0` (R190). -/
def spriteRow (y0 r : Nat) : Fin 32 := Fin.ofNat 32 (y0 + r)

/-- Sprite column `c` of a sprite byte is its bit `7 - c` (R190). -/
def spriteBit (b : Byte) (c : Nat) : Bool := b.getLsbD (7 - c)

/-- One sprite bit: a 1 inverts its pixel and records whether the pixel was lit, a 0 does nothing (R192). -/
def blitBit (x0 y0 r : Nat) (b : Byte) (acc : Display × Bool) (c : Nat) : Display × Bool :=
  if spriteBit b c then
    (acc.1.flip (spriteColumn x0 c) (spriteRow y0 r), acc.2 || acc.1.pixel (spriteColumn x0 c) (spriteRow y0 r))
  else acc

/-- One sprite byte, its eight columns left to right (R192). -/
def blitRow (x0 y0 r : Nat) (b : Byte) (acc : Display × Bool) : Display × Bool :=
  (List.range 8).foldl (blitBit x0 y0 r b) acc

/-- The sprite bytes from row `r` downward (R192): the bitmap and the collision flag. -/
def blit (x0 y0 : Nat) : Nat → List Byte → Display × Bool → Display × Bool
  | _, [], acc => acc
  | r, b :: bs, acc => blit x0 y0 (r + 1) bs (blitRow x0 y0 r b acc)

end Sys2Proof.Machine
end

