-- ==== Sys2Proof/Machine/Operands.lean ====
section
/-! DEFINITION. The operand forms of the instruction set: immediates, register operands read as numbers, addresses
through `I`, the computed jump target, the glyph address, decimal digits and key numbers. -/

namespace Sys2Proof.Machine

/-- `zext_16(nnn)` (30_encoding.md R93). -/
def addr16 (nnn : Addr12) : Word := nnn.setWidth 16

/-- `zext_16(V[x])` (R124, R172, R173). -/
def State.getV16 (s : State) (x : Reg) : Word := (s.getV x).setWidth 16

/-- `I` as the natural number an access starts from (42_index_memory.md R170). -/
def State.base (s : State) : Nat := s.i.toNat

/-- `zext_16(nnn) + zext_16(V[0])`, the target of JP V0 (R124). -/
def State.offsetTarget (s : State) (nnn : Addr12) : Word := addr16 nnn + s.getV16 0#4

/-- `0x0050 + 5 * zext_16(V[x])`, the address of a glyph (R173). -/
def State.glyphAddr (s : State) (x : Reg) : Word := 0x0050#16 + 5#16 * s.getV16 x

/-- The hundreds, tens and ones digits of a byte, one byte each (R174). -/
def bcdDigits (v : Byte) : List Byte :=
  [BitVec.ofNat 8 (v.toNat / 100), BitVec.ofNat 8 (v.toNat / 10 % 10), BitVec.ofNat 8 (v.toNat % 10)]

/-- `V[x] and 0x0F`, the key number a skip tests (R201, R202). -/
def State.keyOperand (s : State) (x : Reg) : Nibble := (s.getV x).setWidth 4

/-- `zext_8(k)`, the value a completed key wait commits (R204). -/
def keyValue (k : Nibble) : Byte := k.setWidth 8

end Sys2Proof.Machine
end

