-- ==== Sys2Proof/Machine/Flags.lean ====
section
/-! DEFINITION. The flag values (10_state.md R21, 41_alu.md R140) and the one way a flag is written: after the
result, so that it survives when the destination is `VF` itself (R141). -/

namespace Sys2Proof.Machine

/-- The flag as the byte 0x01 or 0x00 (R21, R140). -/
def flagByte (c : Bool) : Byte := if c then 0x01#8 else 0x00#8

/-- The carry of `a + b`: 1 exactly when the sum exceeds 255 (R140, R148). -/
def carryFlag (a b : Byte) : Byte := flagByte (decide (255 < a.toNat + b.toNat))

/-- No borrow in `a - b`: 1 exactly when `a` is at least `b` (R140, R149, R151). -/
def noBorrowFlag (a b : Byte) : Byte := flagByte (decide (b.toNat ≤ a.toNat))

/-- The bit a right shift by one moves out (R150). -/
def lowBitFlag (a : Byte) : Byte := flagByte (a.getLsbD 0)

/-- The bit a left shift by one moves out (R152). -/
def highBitFlag (a : Byte) : Byte := flagByte (a.getLsbD 7)

/-- `VF <- f` (R21). -/
def State.setFlag (s : State) (f : Byte) : State := s.setV regVF f

/-- The end of a flag-writing instruction: the result to `V[x]`, then the flag to `VF` (R141). -/
def State.setResultFlag (s : State) (x : Reg) (r f : Byte) : State := (s.setV x r).setFlag f

end Sys2Proof.Machine
end

