-- ==== Sys2Proof/Machine/Alu.lean ====
section
/-! DEFINITION. Register load, arithmetic, logic, shift and random instructions (41_alu.md R140 to R153). -/

namespace Sys2Proof.Machine

/-- `6xkk` LD Vx, kk (R142). -/
def execLdVxKk (x : Reg) (kk : Byte) (s : State) : Result := .next (s.setV x kk)

/-- `7xkk` ADD Vx, kk: modulo 256, no flag (R143). -/
def execAddVxKk (x : Reg) (kk : Byte) (s : State) : Result := .next (s.setV x (s.getV x + kk))

/-- `8xy0` LD Vx, Vy (R144). -/
def execLdVxVy (x y : Reg) (s : State) : Result := .next (s.setV x (s.getV y))

/-- `8xy1` OR: no flag (R145). -/
def execOrVxVy (x y : Reg) (s : State) : Result := .next (s.setV x (s.getV x ||| s.getV y))

/-- `8xy2` AND: no flag (R146). -/
def execAndVxVy (x y : Reg) (s : State) : Result := .next (s.setV x (s.getV x &&& s.getV y))

/-- `8xy3` XOR: no flag (R147). -/
def execXorVxVy (x y : Reg) (s : State) : Result := .next (s.setV x (s.getV x ^^^ s.getV y))

/-- `8xy4` ADD with carry out (R148). -/
def execAddVxVy (x y : Reg) (s : State) : Result :=
  .next (s.setResultFlag x (s.getV x + s.getV y) (carryFlag (s.getV x) (s.getV y)))

/-- `8xy5` SUB, `VF` = no borrow (R149). -/
def execSubVxVy (x y : Reg) (s : State) : Result :=
  .next (s.setResultFlag x (s.getV x - s.getV y) (noBorrowFlag (s.getV x) (s.getV y)))

/-- `8xy6` SHR: `V[x]` in place, `y` ignored (R100, R150). -/
def execShrVx (x _y : Reg) (s : State) : Result :=
  .next (s.setResultFlag x (s.getV x >>> 1) (lowBitFlag (s.getV x)))

/-- `8xy7` SUBN, operands reversed (R151). -/
def execSubnVxVy (x y : Reg) (s : State) : Result :=
  .next (s.setResultFlag x (s.getV y - s.getV x) (noBorrowFlag (s.getV y) (s.getV x)))

/-- `8xyE` SHL: `V[x]` in place, `y` ignored (R100, R152). -/
def execShlVx (x _y : Reg) (s : State) : Result :=
  .next (s.setResultFlag x (s.getV x <<< 1) (highBitFlag (s.getV x)))

/-- `Cxkk` RND: a fresh RND byte under the mask `kk` (R36, R153; log entry 2). -/
def execRnd (x : Reg) (kk : Byte) (s : State) : Result :=
  .next ((s.setV x (Config.rndByte s.draws &&& kk)).countDraw)

end Sys2Proof.Machine
end

