-- ==== Sys2Proof/Machine/ControlFlow.lean ====
section
/-! DEFINITION. The control-flow instructions (40_control_flow.md R121 to R129).  In every meaning `s.pc` is the
instruction's address plus 2 already (R10, R31). -/

namespace Sys2Proof.Machine

/-- `0nnn` SYS: no operation (R121). -/
def execSys (_nnn : Addr12) (s : State) : Result := .next s

/-- `00EE` RET: pop PC, or StackUnderflow (R122, R224). -/
def execRet (s : State) : Result := s.orRaise s.popPc

/-- `1nnn` JP (R123). -/
def execJp (nnn : Addr12) (s : State) : Result := .next (s.setPc (addr16 nnn))

/-- `Bnnn` JP V0: the 16-bit sum, not reduced modulo 4096 (R124). -/
def execJpV0 (nnn : Addr12) (s : State) : Result := .next (s.setPc (s.offsetTarget nnn))

/-- `2nnn` CALL: push the return address and jump, or StackOverflow (R125, R222). -/
def execCall (nnn : Addr12) (s : State) : Result :=
  s.orRaise ((s.push s.pc).map fun t => t.setPc (addr16 nnn))

/-- `3xkk` SE Vx, kk (R126). -/
def execSeVxKk (x : Reg) (kk : Byte) (s : State) : Result := .next (s.skipIf (s.getV x == kk))

/-- `4xkk` SNE Vx, kk (R127). -/
def execSneVxKk (x : Reg) (kk : Byte) (s : State) : Result := .next (s.skipIf (s.getV x != kk))

/-- `5xy0` SE Vx, Vy (R128). -/
def execSeVxVy (x y : Reg) (s : State) : Result := .next (s.skipIf (s.getV x == s.getV y))

/-- `9xy0` SNE Vx, Vy (R129). -/
def execSneVxVy (x y : Reg) (s : State) : Result := .next (s.skipIf (s.getV x != s.getV y))

end Sys2Proof.Machine
end

