-- ==== Sys2Proof/Machine/Display.lean ====
section
/-! DEFINITION. Display instructions (43_display.md R190 to R193). -/

namespace Sys2Proof.Machine

/-- `00E0` CLS: every pixel 0, DIRTY set, VF untouched (R191). -/
def execCls (s : State) : Result := .next ((s.setDisp Display.blank).setDirty true)

/-- The effect of DRW once its sprite bytes are read: the bitmap, then the collision flag, then DIRTY (R192). -/
def State.drawSprite (s : State) (x y : Reg) (bytes : List Byte) : State :=
  let r := blit (s.getV x).toNat (s.getV y).toNat 0 bytes (s.disp, false)
  ((s.setDisp r.1).setFlag (flagByte r.2)).setDirty true

/-- `Dxyn` DRW: `n` sprite bytes from `I` at column `V[x]`, row `V[y]`, or MemoryOutOfRange (R192). -/
def execDrw (x y : Reg) (n : Nibble) (s : State) : Result :=
  s.orRaise ((s.loadBytes s.base n.toNat).map (s.drawSprite x y))

end Sys2Proof.Machine
end

