-- ==== Sys2Proof/Machine/IndexMemory.lean ====
section
/-! DEFINITION. Index-register and memory instructions (42_index_memory.md R170 to R176). -/

namespace Sys2Proof.Machine

/-- `Annn` LD I, nnn (R171). -/
def execLdI (nnn : Addr12) (s : State) : Result := .next (s.setI (addr16 nnn))

/-- `Fx1E` ADD I, Vx: modulo 65536, no flag (R172). -/
def execAddIVx (x : Reg) (s : State) : Result := .next (s.setI (s.i + s.getV16 x))

/-- `Fx29` LD F, Vx: the whole byte counts, no mask (R173). -/
def execLdFVx (x : Reg) (s : State) : Result := .next (s.setI (s.glyphAddr x))

/-- `Fx33` LD B, Vx: three decimal digits at `I`, or MemoryOutOfRange (R174). -/
def execLdBVx (x : Reg) (s : State) : Result := s.orRaise (s.storeBytes s.base (bcdDigits (s.getV x)))

/-- `Fx55` LD [I], Vx: `V[0]` to `V[x]` at `I`, which keeps its value, or MemoryOutOfRange (R175). -/
def execLdMemVx (x : Reg) (s : State) : Result := s.orRaise (s.storeBytes s.base (s.regsUpTo x))

/-- `Fx65` LD Vx, [I]: `V[0]` to `V[x]` from `I`, which keeps its value, or MemoryOutOfRange (R176). -/
def execLdVxMem (x : Reg) (s : State) : Result :=
  s.orRaise ((s.loadBytes s.base (x.toNat + 1)).map (s.setRegsFrom 0))

end Sys2Proof.Machine
end

