-- ==== Sys2Proof/Machine/KeyboardTimers.lean ====
section
/-! DEFINITION. Keyboard and timer instructions (44_keyboard_timers.md R200 to R206). -/

namespace Sys2Proof.Machine

/-- `Ex9E` SKP: skip when the key of the low nibble of `V[x]` is down (R201). -/
def execSkp (x : Reg) (s : State) : Result := .next (s.skipIf (s.keyDown (s.keyOperand x)))

/-- `ExA1` SKNP: skip when that key is up (R202). -/
def execSknp (x : Reg) (s : State) : Result := .next (s.skipIf (!s.keyDown (s.keyOperand x)))

/-- `Fx07` LD Vx, DT (R203). -/
def execLdVxDt (x : Reg) (s : State) : Result := .next (s.setV x s.dt)

/-- The key wait from `Idle`: capture the least key that is down, if any, and repeat in either case (R204, C4). -/
def State.waitIdle (s : State) : State :=
  match s.lowestKeyDown with
  | some k => (s.setWait (.keyCaptured k)).rewind
  | none => s.rewind

/-- The key wait from `KeyCaptured(k)`: commit `k` once it is up, else repeat (R204). -/
def State.waitCaptured (s : State) (x : Reg) (k : Nibble) : State :=
  if s.keyDown k then s.rewind else (s.setV x (keyValue k)).setWait .idle

/-- `Fx0A` LD Vx, K: one Step of the key wait (R204). -/
def execLdVxK (x : Reg) (s : State) : Result :=
  match s.wait with
  | .idle => .next s.waitIdle
  | .keyCaptured k => .next (s.waitCaptured x k)

/-- `Fx15` LD DT, Vx (R205). -/
def execLdDtVx (x : Reg) (s : State) : Result := .next (s.setDt (s.getV x))

/-- `Fx18` LD ST, Vx (R206). -/
def execLdStVx (x : Reg) (s : State) : Result := .next (s.setSt (s.getV x))

end Sys2Proof.Machine
end

