-- ==== Sys2Proof/Machine/Sequencer.lean ====
section
/-! DEFINITION. The Step sequencer of 10_state.md R31: halted check, fetch, advance, decode, execute.  It takes the
execute phase as an argument; Sys2Proof/Machine/Step.lean gives it `exec`. -/

namespace Sys2Proof.Machine

/-- Decode and execute a fetched word on the state before the advance (R31): PC is advanced by 2 for every word, an
illegal one too (R223). -/
def runWord (execute : Instr → State → Result) (op : Word) (s : State) : Result :=
  match decodeFetched op with
  | .ok i => execute i s.advance
  | .error k => .next (s.advance.raise k)

/-- One Step of a core that is not halted: a fetch that faults leaves PC where it is (R31, R66, R226). -/
def runFetched (execute : Instr → State → Result) (s : State) : Result :=
  match s.fetch with
  | .ok op => runWord execute op s
  | .error k => .next (s.raise k)

/-- One Step (R31).  A halted core changes nothing and reports the latched kind again (R33, R220). -/
def runStep (execute : Instr → State → Result) (s : State) : Result :=
  match s.fault with
  | some k => .fault k
  | none => runFetched execute s

end Sys2Proof.Machine
end

