-- ==== Sys2Proof/Machine/Step.lean ====
section
/-! DEFINITION. The event Step (10_state.md R31), and the placing of one instruction where it fetches. -/

namespace Sys2Proof.Machine

/-- The event Step: fetch, advance PC by 2, decode and execute one instruction (R31). -/
def step (s : State) : Host.Outcome State Fault Refusal := runStep exec s

/-- `s` with the table's word `w` of `nbits` bits stored where `step` fetches next (log entry 5). -/
def State.withFetchWord (s : State) (nbits w : Nat) : State := s.placeWord (tableWord nbits w)

end Sys2Proof.Machine
end

