-- ==== Sys2Proof/Machine/Events.lean ====
section
/-! DEFINITION. The host's side of the core: the events that can change the state (10_state.md R37 to R42,
70_reset_and_hazards.md R262), any schedule of them, the report of a Step (60_exceptions.md R220) and the outputs (R35). -/

namespace Sys2Proof.Machine

/-- One timer's part of a Tick: less one, not below 0 (R37). -/
def countDown (b : Byte) : Byte := if b = 0x00#8 then 0x00#8 else b - 0x01#8

/-- Tick: both timers count down; a halted core does not change (R37). -/
def State.tick (s : State) : State :=
  match s.fault with
  | some _ => s
  | none => (s.setDt (countDown s.dt)).setSt (countDown s.st)

/-- SetKey(k, b): `KEYS[k] <- b` (R38). -/
def State.setKey (s : State) (k : Nibble) (down : Bool) : State := { s with keys := s.keys.set k.toNat down }

/-- ClearDirty: `DIRTY <- 0` (R39). -/
def State.clearDirty (s : State) : State := s.setDirty false

/-- What LoadProgram reports when it does not load: no fault of the core (R232, R262). -/
inductive LoadError where
  /-- The image has more than 3584 bytes. -/
  | imageTooLarge
  deriving DecidableEq, Repr

/-- LoadProgram(image): a copy to 0x200 upward, or LoadError and no change (R262). -/
def State.loadProgram (s : State) (image : List Byte) : Except LoadError State :=
  if image.length ≤ Config.maxImage then .ok (s.setMem (s.mem.writeAll Config.programBase image))
  else .error .imageTooLarge

/-- Reset: every piece of state at its initial value, memory included, for the parameters FONT and MEM_FILL (R42, R69).
The host's stream of RND bytes goes on: it is no state of the core (R36, R44; log entry 2). -/
def State.resetWith (s : State) (font : Vector Byte Config.fontSize) (fill : Byte) : State :=
  { State.reset with mem := Memory.initial font fill, draws := s.draws }

/-- The launch state of a run: Reset, then LoadProgram (R260, R263). -/
def State.launch (font : Vector Byte Config.fontSize) (fill : Byte) (image : List Byte) : Except LoadError State :=
  (State.reset.resetWith font fill).loadProgram image

/-- What a Step reports to the host (R220). -/
inductive Report where
  /-- The instruction completed. -/
  | ok
  /-- The Step raised the fault, or the core was halted by it before. -/
  | fault (k : Fault)
  /-- The model has no meaning for the instruction; no Step reports this. -/
  | noMeaning (r : Refusal)
  deriving DecidableEq, Repr

/-- The report of a Step that left `s`: the latch tells whether it raised a fault (R220, R226). -/
def State.reported (s : State) : Report :=
  match s.fault with
  | some k => .fault k
  | none => .ok

/-- The event Step as the host sees it, on any core: the state after and the report (R31, R220). -/
def State.stepEvent (s : State) : State × Report :=
  match step s with
  | .next t => (t, t.reported)
  | .fault k => (s, .fault k)
  | .refused r => (s, .noMeaning r)

/-- The events that can change the core's state (R40). -/
inductive HostEvent where
  /-- Reset, with the parameters FONT and MEM_FILL (R42). -/
  | reset (font : Vector Byte Config.fontSize) (fill : Byte)
  /-- LoadProgram (R262). -/
  | loadProgram (image : List Byte)
  /-- Step (R31). -/
  | step
  /-- Tick (R37). -/
  | tick
  /-- SetKey: a 4-bit key number and one bit (R38). -/
  | setKey (k : Nibble) (down : Bool)
  /-- ClearDirty (R39). -/
  | clearDirty
  deriving DecidableEq, Repr

/-- The state an event leaves (R40). -/
def applyEvent (s : State) : HostEvent → State
  | .reset font fill => s.resetWith font fill
  | .loadProgram image =>
    match s.loadProgram image with
    | .ok t => t
    | .error _ => s
  | .step => s.stepEvent.1
  | .tick => s.tick
  | .setKey k down => s.setKey k down
  | .clearDirty => s.clearDirty

/-- The state after a schedule of events, the first first (R40, R72, R272). -/
def runEvents (s : State) : List HostEvent → State
  | [] => s
  | e :: es => runEvents (applyEvent s e) es

/-! ### Outputs (R35): pure functions of the state -/

/-- `tone`: 1 exactly when `ST > 0` (R26, R35). -/
def State.tone (s : State) : Bool := decide (0 < s.st.toNat)

/-- The pixel the host reads at column `px`, row `py` (R28, R35). -/
def State.readPixel (s : State) (px : Fin 64) (py : Fin 32) : Bool := s.disp.pixel px py

/-- The row-major linear index of a pixel (R28). -/
def pixelIndex (px : Fin 64) (py : Fin 32) : Nat := py.val * 64 + px.val

/-- The code of a latch value: None is 0, the four kinds 1 to 4 (R33, R221). -/
def faultCode : Option Fault → Nat
  | none => 0
  | some .stackOverflow => 1
  | some .stackUnderflow => 2
  | some .illegalInstruction => 3
  | some .memoryOutOfRange => 4

end Sys2Proof.Machine
end

