-- ==== Sys2Proof/Safety.lean ====
section
/-! DEFINITION. The terms claims about the core are stated in: what may change (a frame), when an instruction
faults, the invariants of 10_state.md R46, and the end of a run (70_reset_and_hazards.md R273). -/

namespace Sys2Proof.Machine

/-- What a claim allows to change: a register, stack entry or byte where the function answers true, a field where
the Boolean is true.  By default nothing. -/
structure Touch where
  v : Reg → Bool := fun _ => false
  i : Bool := false
  pc : Bool := false
  sp : Bool := false
  stack : Nat → Bool := fun _ => false
  dt : Bool := false
  st : Bool := false
  disp : Bool := false
  dirty : Bool := false
  wait : Bool := false
  fault : Bool := false
  keys : Bool := false
  mem : Nat → Bool := fun _ => false
  draws : Bool := false

/-- Between `s` and `t` nothing changed but what `touch` allows: every register, every stack entry, every other
register of 10_state.md R43, every pixel, every key, and every byte of memory through the model's read. -/
structure Frame (touch : Touch) (s t : State) : Prop where
  v : ∀ r, touch.v r = false → t.getV r = s.getV r
  i : touch.i = false → t.i = s.i
  pc : touch.pc = false → t.pc = s.pc
  sp : touch.sp = false → t.sp = s.sp
  stack : ∀ j (h : j < 16), touch.stack j = false → t.stack[j] = s.stack[j]
  dt : touch.dt = false → t.dt = s.dt
  st : touch.st = false → t.st = s.st
  disp : touch.disp = false → ∀ px py, t.disp.pixel px py = s.disp.pixel px py
  dirty : touch.dirty = false → t.dirty = s.dirty
  wait : touch.wait = false → t.wait = s.wait
  fault : touch.fault = false → t.fault = s.fault
  keys : touch.keys = false → ∀ k, t.keyDown k = s.keyDown k
  mem : ∀ a, touch.mem a = false → t.mem.read a = s.mem.read a
  draws : touch.draws = false → t.draws = s.draws

/-- The fault an instruction's execute phase raises, by the table of 60_exceptions.md R230. -/
def faultOf (i : Instr) (s : State) : Option Fault :=
  match i with
  | .call _ => if s.sp.val = 16 then some .stackOverflow else none
  | .ret => if s.sp.val = 0 then some .stackUnderflow else none
  | .drw _ _ n => if 1 ≤ n.toNat ∧ 4095 < s.i.toNat + n.toNat - 1 then some .memoryOutOfRange else none
  | .ldBVx _ => if 4095 < s.i.toNat + 2 then some .memoryOutOfRange else none
  | .ldMemVx x | .ldVxMem x => if 4095 < s.i.toNat + x.toNat then some .memoryOutOfRange else none
  | .cls | .sys _ | .jp _ | .seVxKk _ _ | .sneVxKk _ _ | .seVxVy _ _ | .ldVxKk _ _ | .addVxKk _ _ | .ldVxVy _ _
  | .orVxVy _ _ | .andVxVy _ _ | .xorVxVy _ _ | .addVxVy _ _ | .subVxVy _ _ | .shrVx _ _ | .subnVxVy _ _
  | .shlVx _ _ | .sneVxVy _ _ | .ldI _ | .jpV0 _ | .rnd _ _ | .skp _ | .sknp _ | .ldVxDt _ | .ldVxK _
  | .ldDtVx _ | .ldStVx _ | .addIVx _ | .ldFVx _ => none

/-- The instruction may write `VF`: one of the six flag writers, or one whose destination registers include `VF`
(10_state.md R21). -/
def mayWriteVF : Instr → Bool
  | .addVxVy _ _ | .subVxVy _ _ | .shrVx _ _ | .subnVxVy _ _ | .shlVx _ _ | .drw _ _ _ => true
  | .ldVxKk x _ | .addVxKk x _ | .ldVxVy x _ | .orVxVy x _ | .andVxVy x _ | .xorVxVy x _ | .rnd x _ | .ldVxDt x
  | .ldVxK x | .ldVxMem x => x == regVF
  | .cls | .ret | .sys _ | .jp _ | .call _ | .seVxKk _ _ | .sneVxKk _ _ | .seVxVy _ _ | .sneVxVy _ _ | .ldI _
  | .jpV0 _ | .skp _ | .sknp _ | .ldDtVx _ | .ldStVx _ | .addIVx _ | .ldFVx _ | .ldBVx _ | .ldMemVx _ => false

/-- The memory is in canonical form. -/
def State.memCanonical (s : State) : Prop := s.mem.wf = true

/-- `PC < 0x1100`, and so is every stack entry, whose values RET can put into PC (10_state.md R23, R46). -/
def State.pcBounded (s : State) : Prop :=
  s.pc.toNat < 0x1100 ∧ ∀ j (h : j < 16), s.stack[j].toNat < 0x1100

/-- The state invariant of R46 that is not already in the types of the fields: `SP` is 0 to 16 by its type. -/
structure State.Inv (s : State) : Prop where
  mem : s.memCanonical
  pc : s.pcBounded

/-- The word the next Step decodes, when PC allows a fetch (20_memory.md R65, R66). -/
def State.wordAt (s : State) (a : Nat) : Word := s.mem.read a ++ s.mem.read (a + 1)

/-- The byte at `a` after a store of `count` bytes from `I` upward, the `k`-th of them `f k`, all else as in `s`
(20_memory.md R63, R74). -/
def State.byteAfterStore (s : State) (count : Nat) (f : Nat → Byte) (a : Nat) : Byte :=
  if s.i.toNat ≤ a ∧ a < s.i.toNat + count then f (a - s.i.toNat) else s.mem.read a

/-- A captured key is held only while PC points at an LD Vx, K (10_state.md R46). -/
def State.waitAtItsInstruction (s : State) : Prop :=
  ∀ k, s.wait = .keyCaptured k →
    s.pc.toNat ≤ 4094 ∧ ∃ x, decodeWord (s.wordAt s.pc.toNat) = .ok (.ldVxK x)

/-- A run has ended: a jump to itself, no fault, no key wait (70_reset_and_hazards.md R273). -/
def State.ended (s : State) : Prop :=
  s.fault = none ∧ s.wait = .idle ∧ s.pc.toNat ≤ 4094 ∧
    ∃ nnn, decodeWord (s.wordAt s.pc.toNat) = .ok (.jp nnn) ∧ s.pc.toNat = nnn.toNat

/-- The sprite of DRW covers `[px, py]` with a 1 bit: some row `r < n` and column `c < 8` land there and bit `7 - c` of
the byte at `I + r` is 1 (43_display.md R190, R192). -/
def State.spriteHits (s : State) (x y : Reg) (n : Nibble) (px : Fin 64) (py : Fin 32) : Prop :=
  ∃ r c, r < n.toNat ∧ c < 8 ∧ (s.mem.read (s.i.toNat + r)).getLsbD (7 - c) = true ∧
    ((s.getV x).toNat + c) % 64 = px.val ∧ ((s.getV y).toNat + r) % 32 = py.val

end Sys2Proof.Machine
end

