-- ==== Sys2Proof/Certificates/Slice0/Obligations.lean ====
section
/-! DEFINITION. The statements for the provers.  `exec i s` is the execute phase, so `s.pc` is the instruction's
address plus 2 there (10_state.md R31, 00_scope.md R10).  `Frame t s u` says that between `s` and `u` nothing changed
but what `t` names, every byte of memory through the model's read.  A docstring names the rule, and where the spec marks
a part of it as its own decision (D<n>) or as general knowledge (G<n>), that mark. -/

open Sys2Proof Sys2Proof.Machine

/-! ### Encoding (30_encoding.md) -/

/-- Instructions written out as bytes from R104's examples and the examples of R121, R122, R201, R204 and R171.
R104 is itself marked as derived by the spec; the pattern of RET is G1. -/
def Obligations.SpecExampleBytesDecode : Prop :=
  decode [0xD1#8, 0x25#8] = .ok (.drw 1#4 2#4 5#4, []) ∧
  decode [0x6A#8, 0x3C#8] = .ok (.ldVxKk 0xA#4 0x3C#8, []) ∧
  decode [0x12#8, 0xF0#8] = .ok (.jp 0x2F0#12, []) ∧
  decode [0x01#8, 0x23#8] = .ok (.sys 0x123#12, []) ∧
  decode [0x00#8, 0xEE#8] = .ok (.ret, []) ∧
  decode [0xE4#8, 0x9E#8] = .ok (.skp 4#4, []) ∧
  decode [0xF5#8, 0x0A#8] = .ok (.ldVxK 5#4, []) ∧
  decode [0xA2#8, 0xF0#8] = .ok (.ldI 0x2F0#12, [])

/-- The decode function of R95 pattern by pattern, with the formats of R91.  Twenty-two of the patterns are the spec's
general knowledge (G1, D26); SYS leaves out 00E0 and 00EE (C3). -/
def Obligations.DecodeReadsEveryPattern : Prop :=
  ∀ (x y : Reg) (n : Nibble) (kk : Byte) (nnn : Addr12),
    decodeWord 0x00E0#16 = .ok .cls ∧
    decodeWord 0x00EE#16 = .ok .ret ∧
    (nnn ≠ 0x0E0#12 → nnn ≠ 0x0EE#12 → decodeWord (wordNNN 0x0#4 nnn) = .ok (.sys nnn)) ∧
    decodeWord (wordNNN 0x1#4 nnn) = .ok (.jp nnn) ∧
    decodeWord (wordNNN 0x2#4 nnn) = .ok (.call nnn) ∧
    decodeWord (wordXKK 0x3#4 x kk) = .ok (.seVxKk x kk) ∧
    decodeWord (wordXKK 0x4#4 x kk) = .ok (.sneVxKk x kk) ∧
    decodeWord (wordXYN 0x5#4 x y 0x0#4) = .ok (.seVxVy x y) ∧
    decodeWord (wordXKK 0x6#4 x kk) = .ok (.ldVxKk x kk) ∧
    decodeWord (wordXKK 0x7#4 x kk) = .ok (.addVxKk x kk) ∧
    decodeWord (wordXYN 0x8#4 x y 0x0#4) = .ok (.ldVxVy x y) ∧
    decodeWord (wordXYN 0x8#4 x y 0x1#4) = .ok (.orVxVy x y) ∧
    decodeWord (wordXYN 0x8#4 x y 0x2#4) = .ok (.andVxVy x y) ∧
    decodeWord (wordXYN 0x8#4 x y 0x3#4) = .ok (.xorVxVy x y) ∧
    decodeWord (wordXYN 0x8#4 x y 0x4#4) = .ok (.addVxVy x y) ∧
    decodeWord (wordXYN 0x8#4 x y 0x5#4) = .ok (.subVxVy x y) ∧
    decodeWord (wordXYN 0x8#4 x y 0x6#4) = .ok (.shrVx x y) ∧
    decodeWord (wordXYN 0x8#4 x y 0x7#4) = .ok (.subnVxVy x y) ∧
    decodeWord (wordXYN 0x8#4 x y 0xE#4) = .ok (.shlVx x y) ∧
    decodeWord (wordXYN 0x9#4 x y 0x0#4) = .ok (.sneVxVy x y) ∧
    decodeWord (wordNNN 0xA#4 nnn) = .ok (.ldI nnn) ∧
    decodeWord (wordNNN 0xB#4 nnn) = .ok (.jpV0 nnn) ∧
    decodeWord (wordXKK 0xC#4 x kk) = .ok (.rnd x kk) ∧
    decodeWord (wordXYN 0xD#4 x y n) = .ok (.drw x y n) ∧
    decodeWord (wordXKK 0xE#4 x 0x9E#8) = .ok (.skp x) ∧
    decodeWord (wordXKK 0xE#4 x 0xA1#8) = .ok (.sknp x) ∧
    decodeWord (wordXKK 0xF#4 x 0x07#8) = .ok (.ldVxDt x) ∧
    decodeWord (wordXKK 0xF#4 x 0x0A#8) = .ok (.ldVxK x) ∧
    decodeWord (wordXKK 0xF#4 x 0x15#8) = .ok (.ldDtVx x) ∧
    decodeWord (wordXKK 0xF#4 x 0x18#8) = .ok (.ldStVx x) ∧
    decodeWord (wordXKK 0xF#4 x 0x1E#8) = .ok (.addIVx x) ∧
    decodeWord (wordXKK 0xF#4 x 0x29#8) = .ok (.ldFVx x) ∧
    decodeWord (wordXKK 0xF#4 x 0x33#8) = .ok (.ldBVx x) ∧
    decodeWord (wordXKK 0xF#4 x 0x55#8) = .ok (.ldMemVx x) ∧
    decodeWord (wordXKK 0xF#4 x 0x65#8) = .ok (.ldVxMem x)

/-- Decoding the bytes of a well-formed instruction gives it back, every operand kept, and leaves the bytes that follow
(R92, R94, R104).  The patterns are partly G1. -/
def Obligations.DecodeOfEncodeIsIdentity : Prop :=
  ∀ (i : Instr) (rest : List Byte), i.wellFormed = true → decode (encodeBytes i ++ rest) = .ok (i, rest)

/-- A word that decodes is the encoding of the well-formed instruction it decodes to: no bit of it is dropped, the
ignored `y` of SHR and SHL and the ignored `nnn` of SYS included (R95, R100). -/
def Obligations.EncodeOfDecodeIsIdentity : Prop :=
  ∀ (op : Word) (i : Instr), decodeWord op = .ok i → i.wellFormed = true ∧ encode i = op

/-- The illegal words are exactly those R98 lists (the reading of families 5 and 9 is D17). -/
def Obligations.IllegalWordsAreThoseListed : Prop :=
  ∀ op : Word, (∃ e, decodeWord op = .error e) ↔
    (fieldFamily op = 0x5#4 ∧ fieldN op ≠ 0#4) ∨
    (fieldFamily op = 0x8#4 ∧ fieldN op ∈ [0x8#4, 0x9#4, 0xA#4, 0xB#4, 0xC#4, 0xD#4, 0xF#4]) ∨
    (fieldFamily op = 0x9#4 ∧ fieldN op ≠ 0#4) ∨
    (fieldFamily op = 0xE#4 ∧ fieldKK op ∉ [0x9E#8, 0xA1#8]) ∨
    (fieldFamily op = 0xF#4 ∧
      fieldKK op ∉ [0x07#8, 0x0A#8, 0x15#8, 0x18#8, 0x1E#8, 0x29#8, 0x33#8, 0x55#8, 0x65#8])

/-- No word belongs to two rows of the opcode map (R97, with SYS leaving out the two fixed words, C3). -/
def Obligations.OpcodeRowsAreDisjoint : Prop :=
  ∀ (op : Word) (r r' : OpcodeRow), r ∈ opcodeRows → r' ∈ opcodeRows →
    rowMatches r op = true → rowMatches r' op = true → r = r'

/-- The decoder agrees with the opcode map as masks and patterns: a word of a row decodes to an instruction of that
row, and a word of no row is illegal (R94, R95, R98). -/
def Obligations.DecodeAgreesWithOpcodeRows : Prop :=
  (∀ (op : Word) (r : OpcodeRow), r ∈ opcodeRows → rowMatches r op = true →
    ∃ i, decodeWord op = .ok i ∧ mnemonicOf i = r.mnemonic) ∧
  (∀ op : Word, (∀ r ∈ opcodeRows, rowMatches r op = false) → ∃ e, decodeWord op = .error e)

/-! ### The Step (10_state.md R31) -/

/-- When the two bytes at PC, joined big-endian, decode to `i`, a Step of a core with no fault latched is the execute
phase of `i` on the state with PC advanced by 2 (R31, R65). -/
def Obligations.StepRunsTheDecodedInstruction : Prop :=
  ∀ (s : State) (i : Instr), s.fault = none → s.pc.toNat ≤ 4094 →
    decodeWord (s.mem.read s.pc.toNat ++ s.mem.read (s.pc.toNat + 1)) = .ok i →
    step s = exec i (s.setPc (s.pc + 2#16))

/-- A fetch with PC above 4094 only latches MemoryOutOfRange: PC and everything else stay (R66, R226; decisions D3, D4). -/
def Obligations.FetchBeyondMemoryFaults : Prop :=
  ∀ s : State, s.fault = none → 4094 < s.pc.toNat →
    ∃ t, step s = .next t ∧ t.fault = some .memoryOutOfRange ∧ Frame { fault := true } s t

/-- An illegal word latches IllegalInstruction with PC advanced, and nothing else changes (R223; the latch and the state
a fault leaves are the spec's decisions D2 and D3, that the Step answers a next state is the model's choice, log
entry 1). -/
def Obligations.IllegalWordRaisesAfterTheAdvance : Prop :=
  ∀ (s : State) (e : DecodeError), s.fault = none → s.pc.toNat ≤ 4094 →
    decodeWord (s.mem.read s.pc.toNat ++ s.mem.read (s.pc.toNat + 1)) = .error e →
    ∃ t, step s = .next t ∧ t.fault = some .illegalInstruction ∧ t.pc = s.pc + 2#16 ∧
      Frame { pc := true, fault := true } s t

/-- A halted core: a Step reports the latched kind again and changes nothing, a Tick changes nothing (R33, R220, R228;
decisions D2, D20; that the model's `step` answers `fault` here is log entry 1). -/
def Obligations.HaltedCoreOnlyReports : Prop :=
  ∀ (s : State) (k : Fault), s.fault = some k →
    step s = .fault k ∧ s.stepEvent = (s, .fault k) ∧ s.tick = s

/-- Every Step of a core with no fault latched answers a next state, whatever memory and registers hold, and no Step is
ever refused (R31, R95; that a raised fault is a next state is log entry 1). -/
def Obligations.EveryStepAnswersANextState : Prop :=
  (∀ s : State, s.fault = none → ∃ t, step s = .next t) ∧ ∀ (s : State) (r : Refusal), step s ≠ .refused r

/-- The execute phase of every instruction answers a next state, raises exactly the fault the table of R230 gives it
(`faultOf`), and when it raises one nothing but the latch changes (R226, R76; decisions D2, D3, D4; that a raised fault is
a next state with the latch set is the model's choice, log entry 1). -/
def Obligations.ExecuteFaultsFollowTheTable : Prop :=
  ∀ (i : Instr) (s : State), s.fault = none →
    ∃ t, exec i s = .next t ∧ t.fault = faultOf i s ∧ (faultOf i s ≠ none → Frame { fault := true } s t)

/-- The report of a Step is `ok` when the state it leaves has no fault latched and else the latched kind (R220;
decision D2; the form of the report, read from the latch of the next state, is the model's choice, log entry 1). -/
def Obligations.StepReportIsTheLatch : Prop :=
  ∀ s : State, (s.stepEvent.2 = .ok ↔ s.stepEvent.1.fault = none) ∧
    ∀ k, (s.stepEvent.2 = .fault k ↔ s.stepEvent.1.fault = some k)

/-! ### Control flow (40_control_flow.md) -/

/-- SYS: every word `0nnn` but 00E0 and 00EE decodes to it and does nothing; a Step of it changes PC alone, by 2
(R121; that the two words are CLS and RET is R95 and R97 by conflict C3, their patterns being G1). -/
def Obligations.SysIsANoOperation : Prop :=
  decodeWord 0x00E0#16 = .ok .cls ∧ decodeWord 0x00EE#16 = .ok .ret ∧
  ∀ nnn : Addr12, nnn ≠ 0x0E0#12 → nnn ≠ 0x0EE#12 →
    decodeWord (wordNNN 0x0#4 nnn) = .ok (.sys nnn) ∧
    (∀ s : State, exec (.sys nnn) s = .next s) ∧
    ∀ s : State, s.fault = none → s.pc.toNat ≤ 4094 →
      s.mem.read s.pc.toNat ++ s.mem.read (s.pc.toNat + 1) = wordNNN 0x0#4 nnn →
      step s = .next (s.setPc (s.pc + 2#16))

/-- JP nnn sets PC to `nnn` exactly (R123; its pattern is G1). -/
def Obligations.JumpSetsPcExactly : Prop :=
  ∀ (nnn : Addr12) (s : State), ∃ t, exec (.jp nnn) s = .next t ∧ t.pc.toNat = nnn.toNat ∧ Frame { pc := true } s t

/-- JP V0, nnn sets PC to the natural sum of `nnn` and `V[0]`, at most 0x10FE and not reduced modulo 4096; above 4094
the next Step faults in its fetch (R124; R66 and decisions D2, D4, D29 for the last part, in which the next state with the
latch set is the model's choice, log entry 1). -/
def Obligations.OffsetJumpAddsV0 : Prop :=
  ∀ (nnn : Addr12) (s : State), ∃ t, exec (.jpV0 nnn) s = .next t ∧
    t.pc.toNat = nnn.toNat + (s.getV 0#4).toNat ∧ t.pc.toNat ≤ 0x10FE ∧ Frame { pc := true } s t ∧
    (s.fault = none → 4094 < nnn.toNat + (s.getV 0#4).toNat →
      ∃ u, step t = .next u ∧ u.fault = some .memoryOutOfRange)

/-- CALL pushes PC, which is its own address plus 2, at the old SP, and jumps (R125; its pattern is G1 and the slot D10). -/
def Obligations.CallPushesAndJumps : Prop :=
  ∀ (nnn : Addr12) (s : State) (h : s.sp.val < 16), ∃ t, exec (.call nnn) s = .next t ∧
    t.stack[s.sp.val] = s.pc ∧ t.sp.val = s.sp.val + 1 ∧ t.pc.toNat = nnn.toNat ∧
    Frame { pc := true, sp := true, stack := fun j => j == s.sp.val } s t

/-- RET pops the most recent entry into PC and leaves it in the stack (R122; its pattern is G1 and the slot D10). -/
def Obligations.ReturnPopsIntoPc : Prop :=
  ∀ (s : State) (h : 0 < s.sp.val), ∃ t, exec .ret s = .next t ∧
    t.pc = s.stack[s.sp.val - 1] ∧ t.sp.val = s.sp.val - 1 ∧ Frame { pc := true, sp := true } s t

/-- CALL with SP = 16 raises StackOverflow and RET with SP = 0 raises StackUnderflow, before anything is pushed or
popped: nothing but the latch changes (R222, R224; R226 by decisions D2 and D3; that the answer is a next state with the
latch set is the model's choice, log entry 1). -/
def Obligations.StackFaultsComeBeforeAnyChange : Prop :=
  (∀ (nnn : Addr12) (s : State), s.sp.val = 16 →
    ∃ t, exec (.call nnn) s = .next t ∧ t.fault = some .stackOverflow ∧ Frame { fault := true } s t) ∧
  (∀ s : State, s.sp.val = 0 →
    ∃ t, exec .ret s = .next t ∧ t.fault = some .stackUnderflow ∧ Frame { fault := true } s t)

/-- A CALL with room on the stack and then a RET come back to the instruction after the CALL with SP as before (R122, R125,
source §8 in 95_test_vectors.md S6). -/
def Obligations.CallThenReturnComesBack : Prop :=
  ∀ (nnn : Addr12) (s : State), s.sp.val < 16 →
    ∃ t u, exec (.call nnn) s = .next t ∧ exec .ret t = .next u ∧ u.pc = s.pc ∧ u.sp = s.sp ∧
      Frame { stack := fun j => j == s.sp.val } s u

/-- The four skips add 2 to the advanced PC exactly when their condition holds and write nothing else (R126 to R129;
their patterns are G1). -/
def Obligations.SkipsAddTwoOnTheirCondition : Prop :=
  ∀ (x y : Reg) (kk : Byte) (s : State),
    (∃ t, exec (.seVxKk x kk) s = .next t ∧
      t.pc = (if s.getV x = kk then s.pc + 2#16 else s.pc) ∧ Frame { pc := true } s t) ∧
    (∃ t, exec (.sneVxKk x kk) s = .next t ∧
      t.pc = (if s.getV x ≠ kk then s.pc + 2#16 else s.pc) ∧ Frame { pc := true } s t) ∧
    (∃ t, exec (.seVxVy x y) s = .next t ∧
      t.pc = (if s.getV x = s.getV y then s.pc + 2#16 else s.pc) ∧ Frame { pc := true } s t) ∧
    (∃ t, exec (.sneVxVy x y) s = .next t ∧
      t.pc = (if s.getV x ≠ s.getV y then s.pc + 2#16 else s.pc) ∧ Frame { pc := true } s t)

/-! ### Arithmetic and logic (41_alu.md) -/

/-- LD Vx, kk loads the byte and ADD Vx, kk adds it modulo 256; neither touches the flag, unless `VF` is the destination
(R142, R143; their patterns are G1). -/
def Obligations.ImmediateLoadAndAdd : Prop :=
  ∀ (x : Reg) (kk : Byte) (s : State),
    (∃ t, exec (.ldVxKk x kk) s = .next t ∧ t.getV x = kk ∧ Frame { v := fun r => r == x } s t) ∧
    (∃ t, exec (.addVxKk x kk) s = .next t ∧ (t.getV x).toNat = ((s.getV x).toNat + kk.toNat) % 256 ∧
      Frame { v := fun r => r == x } s t)

/-- Copy, OR, AND and XOR, bit by bit; `VF` changes only as the destination (R144 to R147; their patterns are G1, the flag
rule D13). -/
def Obligations.CopyAndLogicActBitByBit : Prop :=
  ∀ (x y : Reg) (s : State),
    (∃ t, exec (.ldVxVy x y) s = .next t ∧ t.getV x = s.getV y ∧ Frame { v := fun r => r == x } s t) ∧
    (∃ t, exec (.orVxVy x y) s = .next t ∧
      (∀ j, j < 8 → (t.getV x).getLsbD j = ((s.getV x).getLsbD j || (s.getV y).getLsbD j)) ∧
      Frame { v := fun r => r == x } s t) ∧
    (∃ t, exec (.andVxVy x y) s = .next t ∧
      (∀ j, j < 8 → (t.getV x).getLsbD j = ((s.getV x).getLsbD j && (s.getV y).getLsbD j)) ∧
      Frame { v := fun r => r == x } s t) ∧
    (∃ t, exec (.xorVxVy x y) s = .next t ∧
      (∀ j, j < 8 → (t.getV x).getLsbD j = ((s.getV x).getLsbD j != (s.getV y).getLsbD j)) ∧
      Frame { v := fun r => r == x } s t)

/-- ADD Vx, Vy: the sum modulo 256 and the carry in `VF`, which wins when `x` is 15 (R148, R141; pattern G1, order D11). -/
def Obligations.AddWritesSumThenCarry : Prop :=
  ∀ (x y : Reg) (s : State), ∃ t, exec (.addVxVy x y) s = .next t ∧
    t.getV regVF = (if (s.getV x).toNat + (s.getV y).toNat > 255 then 1#8 else 0#8) ∧
    (x ≠ regVF → (t.getV x).toNat = ((s.getV x).toNat + (s.getV y).toNat) % 256) ∧
    Frame { v := fun r => r == x || r == regVF } s t

/-- SUB Vx, Vy and SUBN Vx, Vy: the difference modulo 256 and no-borrow in `VF`, 1 on equal operands too, the flag winning
when `x` is 15 (R149, R151, R140, R141; patterns G1, order D11). -/
def Obligations.SubtractsWriteDifferenceThenNoBorrow : Prop :=
  ∀ (x y : Reg) (s : State),
    (∃ t, exec (.subVxVy x y) s = .next t ∧
      t.getV regVF = (if (s.getV x).toNat ≥ (s.getV y).toNat then 1#8 else 0#8) ∧
      (x ≠ regVF → (t.getV x).toNat = ((s.getV x).toNat + 256 - (s.getV y).toNat) % 256) ∧
      Frame { v := fun r => r == x || r == regVF } s t) ∧
    (∃ t, exec (.subnVxVy x y) s = .next t ∧
      t.getV regVF = (if (s.getV y).toNat ≥ (s.getV x).toNat then 1#8 else 0#8) ∧
      (x ≠ regVF → (t.getV x).toNat = ((s.getV y).toNat + 256 - (s.getV x).toNat) % 256) ∧
      Frame { v := fun r => r == x || r == regVF } s t)

/-- SHR and SHL shift `V[x]` in place by one for every value of the ignored `y`, the bit moved out going to `VF`
(R150, R152, R100; patterns G1, in place D12, order D11). -/
def Obligations.ShiftsActInPlaceAndIgnoreY : Prop :=
  ∀ (x y : Reg) (s : State),
    (∃ t, exec (.shrVx x y) s = .next t ∧ (t.getV regVF).toNat = (s.getV x).toNat % 2 ∧
      (x ≠ regVF → (t.getV x).toNat = (s.getV x).toNat / 2) ∧
      Frame { v := fun r => r == x || r == regVF } s t) ∧
    (∃ t, exec (.shlVx x y) s = .next t ∧ (t.getV regVF).toNat = (s.getV x).toNat / 128 ∧
      (x ≠ regVF → (t.getV x).toNat = 2 * (s.getV x).toNat % 256) ∧
      Frame { v := fun r => r == x || r == regVF } s t)

/-- RND: `V[x]` is the drawn byte under the mask, so every bit 0 in `kk` is 0, and the flag is not written; the next draw
has a new number (R153, R36).  The byte is the free value `Config.rndByte` at the draw's number, the model's form of it
(log entry 2), and the statement holds whatever it is. -/
def Obligations.RandomByteIsMasked : Prop :=
  ∀ (x : Reg) (kk : Byte) (s : State), ∃ t, exec (.rnd x kk) s = .next t ∧
    t.getV x = Config.rndByte s.draws &&& kk ∧
    (∀ j, kk.getLsbD j = false → (t.getV x).getLsbD j = false) ∧
    (kk = 0xFF#8 → t.getV x = Config.rndByte s.draws) ∧
    t.draws = s.draws + 1 ∧ Frame { v := fun r => r == x, draws := true } s t

/-- ADD Vx, Vy and then SUB Vx, Vy restore `V[x]` for distinct registers other than `VF`, and `VF` is then 1 exactly
when the ADD did not carry (source §8 with its exceptions, 90_conflicts.md C10). -/
def Obligations.AddThenSubtractRestores : Prop :=
  ∀ (x y : Reg) (s : State), x ≠ y → x ≠ regVF → y ≠ regVF →
    ∃ t u, exec (.addVxVy x y) s = .next t ∧ exec (.subVxVy x y) t = .next u ∧
      u.getV x = s.getV x ∧
      u.getV regVF = (if (s.getV x).toNat + (s.getV y).toNat > 255 then 0#8 else 1#8) ∧
      Frame { v := fun r => r == regVF } s u

/-- An instruction that is none of the six flag writers and does not have `VF` among its destinations leaves `VF` alone
(R21; for the logic operations D13). -/
def Obligations.OthersLeaveTheFlagAlone : Prop :=
  ∀ (i : Instr) (s t : State), exec i s = .next t → mayWriteVF i = false → t.getV regVF = s.getV regVF

/-! ### Index register and memory (42_index_memory.md, 20_memory.md) -/

/-- LD I, nnn decodes from `Annn`, sets `I` to `nnn` and touches nothing else, `VF` included (R171). -/
def Obligations.LoadIndexSetsI : Prop :=
  ∀ (nnn : Addr12) (s : State), decodeWord (wordNNN 0xA#4 nnn) = .ok (.ldI nnn) ∧
    ∃ t, exec (.ldI nnn) s = .next t ∧ t.i.toNat = nnn.toNat ∧ Frame { i := true } s t

/-- ADD I, Vx adds modulo 65536 and sets no flag; LD F, Vx sets `I` to 0x050 + 5 * V[x] for the whole byte (R172, R173;
decisions D6, D23). -/
def Obligations.IndexArithmetic : Prop :=
  ∀ (x : Reg) (s : State),
    (∃ t, exec (.addIVx x) s = .next t ∧ t.i.toNat = (s.i.toNat + (s.getV x).toNat) % 65536 ∧
      Frame { i := true } s t) ∧
    (∃ t, exec (.ldFVx x) s = .next t ∧ t.i.toNat = 0x050 + 5 * (s.getV x).toNat ∧ Frame { i := true } s t)

/-- LD B, Vx with its three addresses inside memory stores the decimal digits of `V[x]` as whole bytes at `I`, `I+1` and
`I+2`; the digits are at most 9 and make up the value; no other byte and no register changes (R174; the range premise is
D4). -/
def Obligations.DecimalDigitsAreStored : Prop :=
  ∀ (x : Reg) (s : State), s.i.toNat + 2 ≤ 4095 → ∃ t, exec (.ldBVx x) s = .next t ∧
    (t.mem.read s.i.toNat).toNat = (s.getV x).toNat / 100 ∧
    (t.mem.read (s.i.toNat + 1)).toNat = (s.getV x).toNat / 10 % 10 ∧
    (t.mem.read (s.i.toNat + 2)).toNat = (s.getV x).toNat % 10 ∧
    Frame { mem := fun a => decide (s.i.toNat ≤ a ∧ a ≤ s.i.toNat + 2) } s t

/-- LD [I], Vx with its addresses inside memory stores `V[r]` at `I + r` for every `r` up to `x`; `I`, the registers and
every other byte keep their values (R175; the range premise is D4). -/
def Obligations.RegistersAreDumped : Prop :=
  ∀ (x : Reg) (s : State), s.i.toNat + x.toNat ≤ 4095 → ∃ t, exec (.ldMemVx x) s = .next t ∧
    (∀ r : Reg, r.toNat ≤ x.toNat → t.mem.read (s.i.toNat + r.toNat) = s.getV r) ∧
    Frame { mem := fun a => decide (s.i.toNat ≤ a ∧ a ≤ s.i.toNat + x.toNat) } s t

/-- LD Vx, [I] with its addresses inside memory loads `V[r]` from `I + r` for every `r` up to `x`; `I`, memory and the
registers above `x` keep their values (R176; the range premise is D4). -/
def Obligations.RegistersAreLoaded : Prop :=
  ∀ (x : Reg) (s : State), s.i.toNat + x.toNat ≤ 4095 → ∃ t, exec (.ldVxMem x) s = .next t ∧
    (∀ r : Reg, r.toNat ≤ x.toNat → t.getV r = s.mem.read (s.i.toNat + r.toNat)) ∧
    Frame { v := fun r => decide (r.toNat ≤ x.toNat) } s t

/-- A dump, any change of the registers, and a load of the same count restore `V[0]` to `V[x]` and leave the registers
above `x` as the change left them (source §8 in R176). -/
def Obligations.DumpThenLoadRestores : Prop :=
  ∀ (x : Reg) (s : State), s.i.toNat + x.toNat ≤ 4095 → ∃ t, exec (.ldMemVx x) s = .next t ∧
    ∀ w : Vector Byte 16, ∃ u, exec (.ldVxMem x) { t with v := w } = .next u ∧
      ∀ r : Reg, u.getV r = if r.toNat ≤ x.toNat then s.getV r else w[r.toNat]

/-- A store is seen by the next fetch, with no fence between: after LD [I], Vx and after LD B, Vx a fetch from any legal
address reads the stored bytes where it meets them and the old bytes elsewhere, whether both of its bytes lie in the
stored range, one of them, or none (R74, R63, R65; R74 is itself marked as derived by the spec; the range premises are
D4).  Digit `k` of LD B, from the left, is `V[x] / 10^(2 - k) mod 10`. -/
def Obligations.StoresAreSeenByTheNextFetch : Prop :=
  ∀ (x : Reg) (s : State),
    (s.i.toNat + x.toNat ≤ 4095 → ∃ t, exec (.ldMemVx x) s = .next t ∧
      ∀ p : Word, p.toNat ≤ 4094 → (t.setPc p).fetch =
        .ok (s.byteAfterStore (x.toNat + 1) (fun k => s.getV (BitVec.ofNat 4 k)) p.toNat ++
          s.byteAfterStore (x.toNat + 1) (fun k => s.getV (BitVec.ofNat 4 k)) (p.toNat + 1))) ∧
    (s.i.toNat + 2 ≤ 4095 → ∃ t, exec (.ldBVx x) s = .next t ∧
      ∀ p : Word, p.toNat ≤ 4094 → (t.setPc p).fetch =
        .ok (s.byteAfterStore 3 (fun k => BitVec.ofNat 8 ((s.getV x).toNat / 10 ^ (2 - k) % 10)) p.toNat ++
          s.byteAfterStore 3 (fun k => BitVec.ofNat 8 ((s.getV x).toNat / 10 ^ (2 - k) % 10)) (p.toNat + 1)))

/-! ### Display (43_display.md) -/

/-- CLS makes every pixel 0 and sets DIRTY; `VF` is not written (R191; pattern G1, DIRTY D16). -/
def Obligations.ClearBlanksTheDisplay : Prop :=
  ∀ s : State, ∃ t, exec .cls s = .next t ∧ (∀ px py, t.disp.pixel px py = false) ∧ t.dirty = true ∧
    Frame { disp := true, dirty := true } s t

/-- DRW with its sprite inside memory, or with no row at all, inverts exactly the pixels its 1 bits land on, each wrapped
on its own; `VF` is 1 exactly when one of them was lit; DIRTY is set; nothing else changes (R190, R192; decisions D11, D14,
D15, D16 and, for the premise, D4; collision C5). -/
def Obligations.DrawInvertsTheSpritePixels : Prop :=
  ∀ (x y : Reg) (n : Nibble) (s : State), n.toNat = 0 ∨ s.i.toNat + n.toNat - 1 ≤ 4095 →
    ∃ t, exec (.drw x y n) s = .next t ∧
      (∀ px py, s.spriteHits x y n px py → t.disp.pixel px py = !s.disp.pixel px py) ∧
      (∀ px py, ¬ s.spriteHits x y n px py → t.disp.pixel px py = s.disp.pixel px py) ∧
      (t.getV regVF = 1#8 ↔ ∃ px py, s.spriteHits x y n px py ∧ s.disp.pixel px py = true) ∧
      (t.getV regVF = 0#8 ∨ t.getV regVF = 1#8) ∧
      t.dirty = true ∧ Frame { v := fun r => r == regVF, disp := true, dirty := true } s t

/-- Drawing the same sprite twice at the same coordinates restores the bitmap; on a blank bitmap the first draw gives
`VF = 0` and the second `VF = 1` exactly when the sprite has a 1 bit (R193, C9; `VF` is no coordinate, since the first draw
would change it). -/
def Obligations.DrawingTwiceRestores : Prop :=
  ∀ (x y : Reg) (n : Nibble) (s : State), x ≠ regVF → y ≠ regVF →
    n.toNat = 0 ∨ s.i.toNat + n.toNat - 1 ≤ 4095 →
    ∃ t u, exec (.drw x y n) s = .next t ∧ exec (.drw x y n) t = .next u ∧
      (∀ px py, u.disp.pixel px py = s.disp.pixel px py) ∧
      ((∀ px py, s.disp.pixel px py = false) → t.getV regVF = 0#8 ∧
        (u.getV regVF = 1#8 ↔
          ∃ r j, r < n.toNat ∧ j < 8 ∧ (s.mem.read (s.i.toNat + r)).getLsbD j = true))

/-! ### Keyboard and timers (44_keyboard_timers.md) -/

/-- SKP and SKNP decode from `Ex9E` and `ExA1` and skip when the key named by the low nibble of `V[x]` is down, or up
(R201, R202). -/
def Obligations.KeySkipsTestTheLowNibble : Prop :=
  ∀ (x : Reg) (s : State),
    decodeWord (wordXKK 0xE#4 x 0x9E#8) = .ok (.skp x) ∧ decodeWord (wordXKK 0xE#4 x 0xA1#8) = .ok (.sknp x) ∧
    (∃ t, exec (.skp x) s = .next t ∧
      t.pc = (if s.keyDown (BitVec.ofNat 4 ((s.getV x).toNat % 16)) = true then s.pc + 2#16 else s.pc) ∧
      Frame { pc := true } s t) ∧
    (∃ t, exec (.sknp x) s = .next t ∧
      t.pc = (if s.keyDown (BitVec.ofNat 4 ((s.getV x).toNat % 16)) = false then s.pc + 2#16 else s.pc) ∧
      Frame { pc := true } s t)

/-- The three timer transfers, and the tone that follows the sound timer at once (R203, R205, R206, R35; their patterns
are G1). -/
def Obligations.TimerTransfers : Prop :=
  ∀ (x : Reg) (s : State),
    (∃ t, exec (.ldVxDt x) s = .next t ∧ t.getV x = s.dt ∧ Frame { v := fun r => r == x } s t) ∧
    (∃ t, exec (.ldDtVx x) s = .next t ∧ t.dt = s.getV x ∧ Frame { dt := true } s t) ∧
    (∃ t, exec (.ldStVx x) s = .next t ∧ t.st = s.getV x ∧ (t.tone = true ↔ s.getV x ≠ 0#8) ∧
      Frame { st := true } s t)

/-- LD Vx, K decodes from `Fx0A` and takes one Step of its state machine: from Idle with no key down it repeats; from
Idle it captures the least key that is down and repeats; while the captured key is down it repeats; once that key is up
it commits the key's number and PC stays advanced (R204; that the capturing Step rewinds PC is the spec's resolution C4 and
decision D19 (a), the other details of the wait D19). -/
def Obligations.KeyWaitFollowsItsStateMachine : Prop :=
  ∀ (x : Reg) (s : State), decodeWord (wordXKK 0xF#4 x 0x0A#8) = .ok (.ldVxK x) ∧
    ∃ t, exec (.ldVxK x) s = .next t ∧
      (s.wait = .idle → (∀ k, s.keyDown k = false) →
        t.wait = .idle ∧ t.pc = s.pc - 2#16 ∧ Frame { pc := true } s t) ∧
      (∀ k, s.wait = .idle → s.keyDown k = true → (∀ j, j.toNat < k.toNat → s.keyDown j = false) →
        t.wait = .keyCaptured k ∧ t.pc = s.pc - 2#16 ∧ Frame { pc := true, wait := true } s t) ∧
      (∀ k, s.wait = .keyCaptured k → s.keyDown k = true →
        t.wait = .keyCaptured k ∧ t.pc = s.pc - 2#16 ∧ Frame { pc := true } s t) ∧
      (∀ k, s.wait = .keyCaptured k → s.keyDown k = false →
        (t.getV x).toNat = k.toNat ∧ t.wait = .idle ∧ t.pc = s.pc ∧
        Frame { v := fun r => r == x, wait := true } s t)

/-- With no key down any number of Steps at an LD Vx, K leaves the whole state as it is (source §8 in R204). -/
def Obligations.KeyWaitWithNoKeyRepeats : Prop :=
  ∀ (x : Reg) (s : State) (n : Nat), s.fault = none → s.wait = .idle → (∀ k, s.keyDown k = false) →
    s.pc.toNat ≤ 4094 → decodeWord (s.wordAt s.pc.toNat) = .ok (.ldVxK x) →
    runEvents s (List.replicate n .step) = s

/-- Pressing a key and then releasing it across two Steps commits it and passes the instruction, from Idle with all keys
up; no other state is left changed (source §8 in R204; that the capturing Step rewinds PC is C4 and D19 (a)). -/
def Obligations.KeyPressAndReleaseCommits : Prop :=
  ∀ (x k : Nibble) (s : State), s.fault = none → s.wait = .idle → (∀ j, s.keyDown j = false) →
    s.pc.toNat ≤ 4094 → decodeWord (s.wordAt s.pc.toNat) = .ok (.ldVxK x) →
    ((runEvents s [.setKey k true, .step, .setKey k false, .step]).getV x).toNat = k.toNat ∧
    (runEvents s [.setKey k true, .step, .setKey k false, .step]).pc = s.pc + 2#16 ∧
    Frame { v := fun r => r == x, pc := true } s (runEvents s [.setKey k true, .step, .setKey k false, .step])

/-! ### Events of the host (10_state.md R37 to R42, 70_reset_and_hazards.md) -/

/-- A Tick of a core with no fault latched takes one from each timer, never below 0, and changes nothing else (R37). -/
def Obligations.TickCountsDownToZero : Prop :=
  ∀ s : State, s.fault = none → (applyEvent s .tick).dt.toNat = s.dt.toNat - 1 ∧
    (applyEvent s .tick).st.toNat = s.st.toNat - 1 ∧ Frame { dt := true, st := true } s (applyEvent s .tick)

/-- SetKey writes the one key flag and nothing else (R38); ClearDirty clears DIRTY and nothing else (R39). -/
def Obligations.SetKeyAndClearDirtyWriteOneFlag : Prop :=
  (∀ (s : State) (k : Nibble) (b : Bool), (applyEvent s (.setKey k b)).keyDown k = b ∧
    (∀ j, j ≠ k → (applyEvent s (.setKey k b)).keyDown j = s.keyDown j) ∧
    Frame { keys := true } s (applyEvent s (.setKey k b))) ∧
  (∀ s : State, (applyEvent s .clearDirty).dirty = false ∧ Frame { dirty := true } s (applyEvent s .clearDirty))

/-- LoadProgram copies an image of at most 3584 bytes to 0x200 upward and changes nothing else; a longer one is the load
error and changes nothing (R262, R232; that it is defined at any moment is D25). -/
def Obligations.LoadProgramCopiesOrRefuses : Prop :=
  ∀ (s : State) (image : List Byte),
    (image.length ≤ 3584 → ∃ t, s.loadProgram image = .ok t ∧ applyEvent s (.loadProgram image) = t ∧
      (∀ j (h : j < image.length), t.mem.read (0x200 + j) = image[j]) ∧
      Frame { mem := fun a => decide (0x200 ≤ a ∧ a < 0x200 + image.length) } s t) ∧
    (3584 < image.length → s.loadProgram image = .error .imageTooLarge ∧
      applyEvent s (.loadProgram image) = s)

/-- What Reset leaves, from any state and for any FONT and MEM_FILL (R42, R69; all but PC and the blank display are the
spec's decisions D2, D7, D8, D9). -/
def Obligations.ResetLeavesTheInitialState : Prop :=
  ∀ (s : State) (font : Vector Byte 80) (fill : Byte),
    (applyEvent s (.reset font fill)).pc = 0x200#16 ∧ (applyEvent s (.reset font fill)).i = 0#16 ∧
    (∀ r, (applyEvent s (.reset font fill)).getV r = 0#8) ∧ (applyEvent s (.reset font fill)).sp.val = 0 ∧
    (∀ j (h : j < 16), (applyEvent s (.reset font fill)).stack[j] = 0#16) ∧
    (applyEvent s (.reset font fill)).dt = 0#8 ∧ (applyEvent s (.reset font fill)).st = 0#8 ∧
    (applyEvent s (.reset font fill)).tone = false ∧
    (∀ px py, (applyEvent s (.reset font fill)).disp.pixel px py = false) ∧
    (applyEvent s (.reset font fill)).dirty = false ∧ (applyEvent s (.reset font fill)).wait = .idle ∧
    (applyEvent s (.reset font fill)).fault = none ∧
    (∀ k, (applyEvent s (.reset font fill)).keyDown k = false) ∧
    (∀ j (h : j < 80), (applyEvent s (.reset font fill)).mem.read (0x050 + j) = font[j]) ∧
    (∀ a, a < 4096 → a < 0x050 ∨ 0x09F < a → (applyEvent s (.reset font fill)).mem.read a = fill)

/-- The launch state for an image of at most 3584 bytes: the image from 0x200, FONT, and MEM_FILL elsewhere, with PC at
0x200 and no fault (R263; R263 is itself marked as derived by the spec). -/
def Obligations.LaunchStateHoldsTheImage : Prop :=
  ∀ (font : Vector Byte 80) (fill : Byte) (image : List Byte), image.length ≤ 3584 →
    ∃ t, State.launch font fill image = .ok t ∧ t.pc = 0x200#16 ∧ t.fault = none ∧
      (∀ j (h : j < image.length), t.mem.read (0x200 + j) = image[j]) ∧
      (∀ j (h : j < 80), t.mem.read (0x050 + j) = font[j]) ∧
      (∀ a, a < 4096 → a < 0x050 ∨ (0x09F < a ∧ a < 0x200) ∨ 0x200 + image.length ≤ a → t.mem.read a = fill)

/-- The model's `State.reset`, which lists no byte, is what Reset leaves with the default FONT and MEM_FILL: the model's
choice of what an unlisted address reads as (log entry 3) agrees with the spec's defaults (R42, R69, D8). -/
def Obligations.ResetStateHasTheDefaults : Prop :=
  ∀ s : State, applyEvent s (.reset defaultFont defaultFill) = { State.reset with draws := s.draws }

/-- From an ended state, a self-jump with no fault and no key wait, a Step leaves the whole state as it is (R273,
decision D24). -/
def Obligations.EndedStateIsAFixedPoint : Prop :=
  ∀ s : State, s.ended → step s = .next s

/-! ### Invariants and whole-machine rules -/

/-- The invariant holds after reset (R46). -/
def Obligations.InvariantHoldsAtReset : Prop := State.reset.Inv

/-- Every Step keeps the memory canonical and PC, with every stack entry, below 0x1100 (R23, R46). -/
def Obligations.StepKeepsTheInvariant : Prop :=
  ∀ s t : State, s.Inv → step s = .next t → t.Inv

/-- So does every event of the host, for every FONT, MEM_FILL and image (R46). -/
def Obligations.EveryEventKeepsTheInvariant : Prop :=
  ∀ (s : State) (e : HostEvent), s.Inv → (applyEvent s e).Inv

/-- A captured key is held only while PC points at an LD Vx, K: every Step keeps this, and every event but LoadProgram
does (R46, R30; that the capturing Step rewinds PC and what changes the wait are C4 and D19). -/
def Obligations.CapturedKeyStaysAtItsInstruction : Prop :=
  (∀ s t : State, s.waitAtItsInstruction → step s = .next t → t.waitAtItsInstruction) ∧
  (∀ (s : State) (e : HostEvent), (∀ image, e ≠ .loadProgram image) → s.waitAtItsInstruction →
    (applyEvent s e).waitAtItsInstruction)

/-- Once a fault is latched no event but Reset clears it, and no event but Reset changes anything other than the keys,
DIRTY and memory (R46, R228; decision D20). -/
def Obligations.HaltedStateIsLeftByResetAlone : Prop :=
  ∀ (s : State) (k : Fault) (e : HostEvent), s.fault = some k → (∀ font fill, e ≠ .reset font fill) →
    (applyEvent s e).fault = some k ∧
    Frame { keys := true, dirty := true, mem := fun _ => true } s (applyEvent s e)

/-- Each special register is written only by the instructions R43 lists for it, the keys by none, and memory only by
LD B and LD [I] (R43, R34, R68). -/
def Obligations.OnlyListedInstructionsWrite : Prop :=
  ∀ (i : Instr) (s t : State), exec i s = .next t →
    (t.i ≠ s.i → (∃ nnn, i = .ldI nnn) ∨ (∃ x, i = .addIVx x) ∨ (∃ x, i = .ldFVx x)) ∧
    (t.sp ≠ s.sp → (∃ nnn, i = .call nnn) ∨ i = .ret) ∧
    (t.stack ≠ s.stack → ∃ nnn, i = .call nnn) ∧
    (t.dt ≠ s.dt → ∃ x, i = .ldDtVx x) ∧
    (t.st ≠ s.st → ∃ x, i = .ldStVx x) ∧
    (t.disp ≠ s.disp → i = .cls ∨ ∃ x y n, i = .drw x y n) ∧
    (t.dirty ≠ s.dirty → i = .cls ∨ ∃ x y n, i = .drw x y n) ∧
    (t.wait ≠ s.wait → ∃ x, i = .ldVxK x) ∧
    t.keys = s.keys ∧
    (∀ a, t.mem.read a ≠ s.mem.read a → (∃ x, i = .ldBVx x) ∨ ∃ x, i = .ldMemVx x)

/-- No instruction reads DIRTY or the sound timer: started with other values of them, each instruction does the same to
everything else (R26, R29, R43). -/
def Obligations.DirtyAndSoundTimerAreNeverRead : Prop :=
  ∀ (i : Instr) (s t : State) (b : Bool) (d : Byte), exec i s = .next t →
    ∃ u, exec i ((s.setDirty b).setSt d) = .next u ∧ Frame { dirty := true, st := true } t u

/-- Stack entries at SP and above are never read: two states that differ in them alone are taken by every instruction to
states that differ in them alone (R24, R45). -/
def Obligations.StaleStackEntriesAreNeverRead : Prop :=
  ∀ (i : Instr) (s s' t : State), Frame { stack := fun j => decide (s.sp.val ≤ j) } s s' → exec i s = .next t →
    ∃ u, exec i s' = .next u ∧ Frame { stack := fun j => decide (t.sp.val ≤ j) } t u
end

