-- ==== Sys2Proof/Laws/Display.lean ====
section
/-! SUPPORT. What the display operations do, pixel by pixel (10_state.md R28, 43_display.md R190 to R192). -/

namespace Sys2Proof.Machine

theorem Display.pixel_setPixel (d : Display) (px qx : Fin 64) (py qy : Fin 32) (b : Bool) :
    (d.setPixel px py b).pixel qx qy = if qx = px ∧ qy = py then b else d.pixel qx qy := by
  simp only [Display.pixel, Display.setPixel, Vector.getElem_set]
  by_cases hy : py.val = qy.val
  · have hy' : qy = py := Fin.ext hy.symm
    subst hy'
    by_cases hx : px.val = qx.val
    · have hx' : qx = px := Fin.ext hx.symm
      subst hx'; simp
    · have hx' : ¬ qx = px := fun e => hx (by rw [e])
      simp [hx, hx']
  · have hy' : ¬ qy = py := fun e => hy (by rw [e])
    simp [hy, hy']

theorem Display.pixel_flip (d : Display) (px qx : Fin 64) (py qy : Fin 32) :
    (d.flip px py).pixel qx qy = (d.pixel qx qy ^^ (decide (qx = px) && decide (qy = py))) := by
  rw [Display.flip, Display.pixel_setPixel]
  by_cases hx : qx = px <;> by_cases hy : qy = py <;> simp [hx, hy]

@[simp] theorem Display.pixel_blank (px : Fin 64) (py : Fin 32) : Display.blank.pixel px py = false := by
  simp [Display.pixel, Display.blank]

/-- Bitmaps with equal pixels are equal. -/
theorem Display.ext_pixel (d e : Display) (h : ∀ px py, d.pixel px py = e.pixel px py) : d = e := by
  apply Vector.ext
  intro y hy
  apply Vector.ext
  intro x hx
  exact h ⟨x, hx⟩ ⟨y, hy⟩

/-- Eight consecutive columns are pairwise distinct modulo 64 (R190). -/
theorem spriteColumn_inj (x0 c c' : Nat) (hc : c < 64) (hc' : c' < 64) (h : spriteColumn x0 c = spriteColumn x0 c') :
    c = c' := by
  have := congrArg Fin.val h
  simp only [spriteColumn, Fin.val_ofNat] at this
  omega

/-- Fifteen consecutive rows are pairwise distinct modulo 32 (R190). -/
theorem spriteRow_inj (y0 r r' : Nat) (h1 : r < r' + 32) (h2 : r' < r + 32) (h : spriteRow y0 r = spriteRow y0 r') :
    r = r' := by
  have := congrArg Fin.val h
  simp only [spriteRow, Fin.val_ofNat] at this
  omega

theorem blitBit_pixel (x0 y0 r c : Nat) (b : Byte) (acc : Display × Bool) (px : Fin 64) (py : Fin 32) :
    (blitBit x0 y0 r b acc c).1.pixel px py =
      (acc.1.pixel px py ^^ (spriteBit b c && decide (px = spriteColumn x0 c) && decide (py = spriteRow y0 r))) := by
  unfold blitBit
  split
  · next h => simp [Display.pixel_flip, h]
  · next h => simp [Bool.eq_false_iff.2 h]

theorem blitBit_hit (x0 y0 r c : Nat) (b : Byte) (acc : Display × Bool) :
    (blitBit x0 y0 r b acc c).2 =
      (acc.2 || (spriteBit b c && acc.1.pixel (spriteColumn x0 c) (spriteRow y0 r))) := by
  unfold blitBit
  split
  · next h => simp [h]
  · next h => simp [Bool.eq_false_iff.2 h]

/-- Some column of the list carries a 1 bit that lands on column `px`. -/
def rowCovers (x0 : Nat) (b : Byte) (l : List Nat) (px : Fin 64) : Bool :=
  l.any fun c => spriteBit b c && decide (px = spriteColumn x0 c)

theorem blitCols_pixel (x0 y0 r : Nat) (b : Byte) (l : List Nat) (hn : l.Nodup) (hl : ∀ c ∈ l, c < 64)
    (acc : Display × Bool) (px : Fin 64) (py : Fin 32) :
    (l.foldl (blitBit x0 y0 r b) acc).1.pixel px py =
      (acc.1.pixel px py ^^ (rowCovers x0 b l px && decide (py = spriteRow y0 r))) := by
  induction l generalizing acc with
  | nil => simp [rowCovers]
  | cons c l ih =>
    obtain ⟨h1, h2⟩ := List.nodup_cons.1 hn
    rw [List.foldl_cons, ih h2 (fun d hd => hl d (by simp [hd])), blitBit_pixel]
    have hdis : (spriteBit b c && decide (px = spriteColumn x0 c)) = true → rowCovers x0 b l px = false := by
      intro h
      simp only [Bool.and_eq_true, decide_eq_true_eq] at h
      simp only [rowCovers, List.any_eq_false]
      intro d hd hcon
      simp only [Bool.and_eq_true, decide_eq_true_eq] at hcon
      have := spriteColumn_inj x0 c d (hl c (by simp)) (hl d (by simp [hd])) (h.2.symm.trans hcon.2)
      exact h1 (this ▸ hd)
    have hcons : rowCovers x0 b (c :: l) px =
        ((spriteBit b c && decide (px = spriteColumn x0 c)) || rowCovers x0 b l px) := rfl
    rw [hcons]
    cases hb : (spriteBit b c && decide (px = spriteColumn x0 c))
    · simp
    · simp [hdis hb]

theorem blitCols_hit (x0 y0 r : Nat) (b : Byte) (l : List Nat) (hn : l.Nodup) (hl : ∀ c ∈ l, c < 64)
    (acc : Display × Bool) :
    (l.foldl (blitBit x0 y0 r b) acc).2 =
      (acc.2 || l.any fun c => spriteBit b c && acc.1.pixel (spriteColumn x0 c) (spriteRow y0 r)) := by
  induction l generalizing acc with
  | nil => simp
  | cons c l ih =>
    obtain ⟨h1, h2⟩ := List.nodup_cons.1 hn
    rw [List.foldl_cons, ih h2 (fun d hd => hl d (by simp [hd])), blitBit_hit, List.any_cons, Bool.or_assoc]
    congr 2
    have : ∀ d ∈ l, (blitBit x0 y0 r b acc c).1.pixel (spriteColumn x0 d) (spriteRow y0 r) =
        acc.1.pixel (spriteColumn x0 d) (spriteRow y0 r) := by
      intro d hd
      rw [blitBit_pixel]
      have hne : ¬ spriteColumn x0 d = spriteColumn x0 c := fun e =>
        h1 (spriteColumn_inj x0 d c (hl d (by simp [hd])) (hl c (by simp)) e ▸ hd)
      simp [hne]
    clear ih hn hl h1 h2
    induction l with
    | nil => rfl
    | cons d l ih =>
      rw [List.any_cons, List.any_cons, this d (by simp), ih fun e he => this e (by simp [he])]

/-- One sprite row: it inverts the pixels under its 1 bits (R192). -/
theorem blitRow_pixel (x0 y0 r : Nat) (b : Byte) (acc : Display × Bool) (px : Fin 64) (py : Fin 32) :
    (blitRow x0 y0 r b acc).1.pixel px py =
      (acc.1.pixel px py ^^ (rowCovers x0 b (List.range 8) px && decide (py = spriteRow y0 r))) :=
  blitCols_pixel x0 y0 r b _ List.nodup_range (fun c hc => by have := List.mem_range.1 hc; omega) acc px py

/-- One sprite row: a collision is a 1 bit over a pixel that was lit before the row (R192). -/
theorem blitRow_hit (x0 y0 r : Nat) (b : Byte) (acc : Display × Bool) :
    (blitRow x0 y0 r b acc).2 =
      (acc.2 || (List.range 8).any fun c => spriteBit b c && acc.1.pixel (spriteColumn x0 c) (spriteRow y0 r)) :=
  blitCols_hit x0 y0 r b _ List.nodup_range (fun c hc => by have := List.mem_range.1 hc; omega) acc

/-- Some row of the sprite, its first row being `r`, covers `[px, py]` with a 1 bit. -/
def spriteCovers (x0 y0 : Nat) : Nat → List Byte → Fin 64 → Fin 32 → Bool
  | _, [], _, _ => false
  | r, b :: bs, px, py =>
    (rowCovers x0 b (List.range 8) px && decide (py = spriteRow y0 r)) || spriteCovers x0 y0 (r + 1) bs px py

theorem spriteCovers_row (x0 y0 r : Nat) (bs : List Byte) (px : Fin 64) (py : Fin 32)
    (h : spriteCovers x0 y0 r bs px py = true) : ∃ j, j < bs.length ∧ py = spriteRow y0 (r + j) := by
  induction bs generalizing r with
  | nil => simp [spriteCovers] at h
  | cons b bs ih =>
    simp only [spriteCovers, Bool.or_eq_true, Bool.and_eq_true, decide_eq_true_eq] at h
    rcases h with h | h
    · exact ⟨0, by simp, h.2⟩
    · obtain ⟨j, hj, he⟩ := ih (r + 1) h
      exact ⟨j + 1, by simp; omega, by rw [he]; congr 1; omega⟩

/-- The whole sprite inverts exactly the pixels it covers (R192). -/
theorem blit_pixel (x0 y0 r : Nat) (bs : List Byte) (hl : bs.length ≤ 32) (acc : Display × Bool) (px : Fin 64)
    (py : Fin 32) :
    (blit x0 y0 r bs acc).1.pixel px py = (acc.1.pixel px py ^^ spriteCovers x0 y0 r bs px py) := by
  induction bs generalizing r acc with
  | nil => simp [blit, spriteCovers]
  | cons b bs ih =>
    simp only [List.length_cons] at hl
    rw [blit, ih (r + 1) (by omega), blitRow_pixel, spriteCovers]
    cases hb : (rowCovers x0 b (List.range 8) px && decide (py = spriteRow y0 r))
    · simp
    · have : spriteCovers x0 y0 (r + 1) bs px py = false := by
        by_contra hcon
        obtain ⟨j, hj, he⟩ := spriteCovers_row x0 y0 (r + 1) bs px py (by simpa using hcon)
        simp only [Bool.and_eq_true, decide_eq_true_eq] at hb
        have := spriteRow_inj y0 r (r + 1 + j) (by omega) (by omega) (hb.2.symm.trans he)
        omega
      simp [this]

/-- Some 1 bit of the sprite, its first row being `r`, lies over a pixel that is lit in `d`. -/
def spriteCollides (d : Display) (x0 y0 : Nat) : Nat → List Byte → Bool
  | _, [] => false
  | r, b :: bs =>
    ((List.range 8).any fun c => spriteBit b c && d.pixel (spriteColumn x0 c) (spriteRow y0 r)) ||
      spriteCollides d x0 y0 (r + 1) bs

theorem spriteCollides_congr (d e : Display) (x0 y0 r : Nat) (bs : List Byte)
    (h : ∀ px j, j < bs.length → d.pixel px (spriteRow y0 (r + j)) = e.pixel px (spriteRow y0 (r + j))) :
    spriteCollides d x0 y0 r bs = spriteCollides e x0 y0 r bs := by
  induction bs generalizing r with
  | nil => rfl
  | cons b bs ih =>
    have h0 : ∀ px, d.pixel px (spriteRow y0 r) = e.pixel px (spriteRow y0 r) := fun px => h px 0 (by simp)
    rw [spriteCollides, spriteCollides, ih (r + 1) fun px j hj => by
      have := h px (j + 1) (by simp; omega)
      rwa [show r + (j + 1) = r + 1 + j by omega] at this]
    simp only [h0]

/-- The whole sprite collides exactly when a 1 bit lies over a pixel lit before the draw (R192, C5). -/
theorem blit_hit (x0 y0 r : Nat) (bs : List Byte) (hl : bs.length ≤ 32) (acc : Display × Bool) :
    (blit x0 y0 r bs acc).2 = (acc.2 || spriteCollides acc.1 x0 y0 r bs) := by
  induction bs generalizing r acc with
  | nil => simp [blit, spriteCollides]
  | cons b bs ih =>
    simp only [List.length_cons] at hl
    rw [blit, ih (r + 1) (by omega), blitRow_hit, spriteCollides, Bool.or_assoc]
    congr 2
    apply spriteCollides_congr
    intro px j hj
    rw [blitRow_pixel]
    have : ¬ spriteRow y0 (r + 1 + j) = spriteRow y0 r := fun e => by
      have := spriteRow_inj y0 (r + 1 + j) r (by omega) (by omega) e
      omega
    simp [this]

end Sys2Proof.Machine
end

