-- ==== Sys2Proof/Laws/Encoding.lean ====
section
/-! SUPPORT. The bits and the fields of the words the encoder builds (30_encoding.md R91, R92). -/

namespace Sys2Proof

theorem getLsbD_wordXYN (f x y n : Nibble) (j : Nat) :
    (wordXYN f x y n).getLsbD j =
      if j < 4 then n.getLsbD j else if j < 8 then y.getLsbD (j - 4) else if j < 12 then x.getLsbD (j - 8)
      else f.getLsbD (j - 12) := by
  show BitVec.getLsbD (w := 4 + 4 + 4 + 4) (f ++ x ++ y ++ n) j = _
  simp only [BitVec.getLsbD_append, Nat.sub_sub]
  split_ifs <;> first | rfl | omega

theorem getLsbD_wordXKK (f x : Nibble) (kk : Byte) (j : Nat) :
    (wordXKK f x kk).getLsbD j =
      if j < 8 then kk.getLsbD j else if j < 12 then x.getLsbD (j - 8) else f.getLsbD (j - 12) := by
  show BitVec.getLsbD (w := 4 + 4 + 8) (f ++ x ++ kk) j = _
  simp only [BitVec.getLsbD_append, Nat.sub_sub]
  split_ifs <;> first | rfl | omega

theorem getLsbD_wordNNN (f : Nibble) (nnn : Addr12) (j : Nat) :
    (wordNNN f nnn).getLsbD j = if j < 12 then nnn.getLsbD j else f.getLsbD (j - 12) := by
  show BitVec.getLsbD (w := 4 + 12) (f ++ nnn) j = _
  simp only [BitVec.getLsbD_append]

/-! ### Fields of a word of format XYF or XYN -/

@[simp] theorem fieldFamily_wordXYN (f x y n : Nibble) : fieldFamily (wordXYN f x y n) = f := by
  apply BitVec.eq_of_getLsbD_eq
  intro j hj
  rw [fieldFamily, BitVec.getLsbD_extractLsb', getLsbD_wordXYN]
  interval_cases j <;> simp

@[simp] theorem fieldX_wordXYN (f x y n : Nibble) : fieldX (wordXYN f x y n) = x := by
  apply BitVec.eq_of_getLsbD_eq
  intro j hj
  rw [fieldX, BitVec.getLsbD_extractLsb', getLsbD_wordXYN]
  interval_cases j <;> simp

@[simp] theorem fieldY_wordXYN (f x y n : Nibble) : fieldY (wordXYN f x y n) = y := by
  apply BitVec.eq_of_getLsbD_eq
  intro j hj
  rw [fieldY, BitVec.getLsbD_extractLsb', getLsbD_wordXYN]
  interval_cases j <;> simp

@[simp] theorem fieldN_wordXYN (f x y n : Nibble) : fieldN (wordXYN f x y n) = n := by
  apply BitVec.eq_of_getLsbD_eq
  intro j hj
  rw [fieldN, BitVec.getLsbD_extractLsb', getLsbD_wordXYN]
  interval_cases j <;> simp

/-! ### Fields of a word of format XKK or XFF -/

@[simp] theorem fieldFamily_wordXKK (f x : Nibble) (kk : Byte) : fieldFamily (wordXKK f x kk) = f := by
  apply BitVec.eq_of_getLsbD_eq
  intro j hj
  rw [fieldFamily, BitVec.getLsbD_extractLsb', getLsbD_wordXKK]
  interval_cases j <;> simp

@[simp] theorem fieldX_wordXKK (f x : Nibble) (kk : Byte) : fieldX (wordXKK f x kk) = x := by
  apply BitVec.eq_of_getLsbD_eq
  intro j hj
  rw [fieldX, BitVec.getLsbD_extractLsb', getLsbD_wordXKK]
  interval_cases j <;> simp

@[simp] theorem fieldKK_wordXKK (f x : Nibble) (kk : Byte) : fieldKK (wordXKK f x kk) = kk := by
  apply BitVec.eq_of_getLsbD_eq
  intro j hj
  rw [fieldKK, BitVec.getLsbD_extractLsb', getLsbD_wordXKK]
  interval_cases j <;> simp

/-! ### Fields of a word of format NNN -/

@[simp] theorem fieldFamily_wordNNN (f : Nibble) (nnn : Addr12) : fieldFamily (wordNNN f nnn) = f := by
  apply BitVec.eq_of_getLsbD_eq
  intro j hj
  rw [fieldFamily, BitVec.getLsbD_extractLsb', getLsbD_wordNNN]
  interval_cases j <;> simp

@[simp] theorem fieldNNN_wordNNN (f : Nibble) (nnn : Addr12) : fieldNNN (wordNNN f nnn) = nnn := by
  apply BitVec.eq_of_getLsbD_eq
  intro j hj
  rw [fieldNNN, BitVec.getLsbD_extractLsb', getLsbD_wordNNN]
  interval_cases j <;> simp

/-! ### A word is made of its fields -/

theorem wordXYN_fields (op : Word) : wordXYN (fieldFamily op) (fieldX op) (fieldY op) (fieldN op) = op := by
  apply BitVec.eq_of_getLsbD_eq
  intro j hj
  rw [getLsbD_wordXYN]
  interval_cases j <;> simp [fieldFamily, fieldX, fieldY, fieldN]

theorem wordXKK_fields (op : Word) : wordXKK (fieldFamily op) (fieldX op) (fieldKK op) = op := by
  apply BitVec.eq_of_getLsbD_eq
  intro j hj
  rw [getLsbD_wordXKK]
  interval_cases j <;> simp [fieldFamily, fieldX, fieldKK]

theorem wordNNN_fields (op : Word) : wordNNN (fieldFamily op) (fieldNNN op) = op := by
  apply BitVec.eq_of_getLsbD_eq
  intro j hj
  rw [getLsbD_wordNNN]
  interval_cases j <;> simp [fieldFamily, fieldNNN]

/-- The byte decoder reads the word its first two bytes make, and leaves the rest (R65, R90). -/
theorem decode_eq (hi lo : Byte) (rest : List Byte) :
    decode (hi :: lo :: rest) = (decodeWord (hi ++ lo)).map fun i => (i, rest) := by
  show (match decodeWord (wordOfBytes hi lo) with | .ok i => _ | .error e => _) = _
  unfold wordOfBytes
  cases decodeWord (hi ++ lo) <;> rfl

end Sys2Proof
end

