-- ==== Sys2Proof/Laws/Memory.lean ====
section
/-! SUPPORT. What the memory operations do: a read after a write, every other address kept, and the canonical form
kept by every operation (20_memory.md R62, R63, R72). -/

namespace Sys2Proof.Machine

theorem Memory.read_insert (c : Host.Cell) (m : Memory) (a : Nat) (h : ∀ d ∈ m, d.1 ≠ c.1) :
    Memory.read (Memory.insert c m) a = if a = c.1 then c.2 else Memory.read m a := by
  induction m with
  | nil => by_cases ha : a = c.1 <;> simp [Memory.insert, Memory.read, eq_comm, ha]
  | cons d m ih =>
    have hd : d.1 ≠ c.1 := h d (by simp)
    have hm : ∀ e ∈ m, e.1 ≠ c.1 := fun e he => h e (by simp [he])
    by_cases hlt : c.1 < d.1
    · by_cases ha : a = c.1
      · subst ha; simp [Memory.insert, hlt, Memory.read]
      · simp [Memory.insert, hlt, Memory.read, ha, Ne.symm ha]
    · simp only [Memory.insert, hlt, if_false, Memory.read, ih hm]
      by_cases ha : a = c.1
      · subst ha; simp [hd]
      · simp [ha]

theorem Memory.read_forget (m : Memory) (a q : Nat) :
    Memory.read (m.forget a) q = if q = a then unlistedByte a else m.read q := by
  induction m with
  | nil => by_cases h : q = a <;> simp [Memory.forget, Memory.read, h]
  | cons d m ih =>
    simp only [Memory.forget] at ih
    by_cases hd : d.1 = a
    · by_cases h : q = a
      · subst h; simp [Memory.forget, hd, ih]
      · have : d.1 ≠ q := fun e => h (by omega)
        simp [Memory.forget, hd, Memory.read, ih, h, Ne.symm h]
    · by_cases h : q = a
      · subst h; simp [Memory.forget, hd, Memory.read, ih]
      · simp [Memory.forget, hd, Memory.read, ih, h]

theorem Memory.forget_ne (m : Memory) (a : Nat) : ∀ d ∈ m.forget a, d.1 ≠ a := by
  intro d hd
  simpa using (List.mem_filter.1 hd).2

/-- A read after a write: the byte written, and every other address as before (R63). -/
theorem Memory.read_write (m : Memory) (a q : Nat) (b : Byte) :
    (m.write a b).read q = if q = a then b else m.read q := by
  unfold Memory.write
  split
  · next h => rw [Memory.read_forget, h]
  · rw [Memory.read_insert _ _ _ (m.forget_ne a), Memory.read_forget]
    by_cases h : q = a <;> simp [h]

/-- A read after a store of several bytes (20_memory.md R68). -/
theorem Memory.read_writeAll (m : Memory) (a q : Nat) (bs : List Byte) :
    (m.writeAll a bs).read q = if a ≤ q ∧ q < a + bs.length then bs.getD (q - a) 0#8 else m.read q := by
  induction bs generalizing m a with
  | nil => simp [Memory.writeAll]
  | cons b bs ih =>
    rw [Memory.writeAll, ih, Memory.read_write]
    simp only [List.length_cons]
    by_cases h1 : q = a
    · subst h1; simp
    · by_cases h2 : a ≤ q ∧ q < a + (bs.length + 1)
      · have h3 : q - a = (q - (a + 1)) + 1 := by omega
        rw [if_pos (by omega), if_pos h2, h3]; rfl
      · rw [if_neg (by omega), if_neg h1, if_neg h2]

/-! ### The canonical form -/

theorem Memory.wf_cons (c : Host.Cell) (m : Memory) :
    Memory.wf (c :: m) = true ↔ cellOk c = true ∧ (∀ d ∈ m, c.1 < d.1) ∧ Memory.wf m = true := by
  simp [Memory.wf, and_assoc]

theorem Memory.mem_insert (c : Host.Cell) (m : Memory) (d : Host.Cell) :
    d ∈ Memory.insert c m ↔ d = c ∨ d ∈ m := by
  induction m with
  | nil => simp [Memory.insert]
  | cons e m ih =>
    simp only [Memory.insert]
    split
    · simp
    · simp [ih]; tauto

theorem Memory.wf_forget (m : Memory) (a : Nat) (h : Memory.wf m = true) : Memory.wf (m.forget a) = true := by
  induction m with
  | nil => exact h
  | cons d m ih =>
    obtain ⟨h1, h2, h3⟩ := (Memory.wf_cons d m).1 h
    have ih' := ih h3
    simp only [Memory.forget] at ih'
    by_cases hd : d.1 = a
    · simpa [Memory.forget, hd] using ih'
    · have : Memory.forget (d :: m) a = d :: Memory.forget m a := by simp [Memory.forget, hd]
      rw [this, Memory.wf_cons]
      exact ⟨h1, fun e he => h2 e (List.mem_of_mem_filter he), ih'⟩

theorem Memory.wf_insert (c : Host.Cell) (m : Memory) (hc : cellOk c = true) (hne : ∀ d ∈ m, d.1 ≠ c.1)
    (h : Memory.wf m = true) : Memory.wf (Memory.insert c m) = true := by
  induction m with
  | nil => simp [Memory.insert, Memory.wf, hc]
  | cons d m ih =>
    obtain ⟨h1, h2, h3⟩ := (Memory.wf_cons d m).1 h
    have hd : d.1 ≠ c.1 := hne d (by simp)
    simp only [Memory.insert]
    split
    · next hlt =>
      rw [Memory.wf_cons]
      refine ⟨hc, fun e he => ?_, h⟩
      rcases List.mem_cons.1 he with rfl | he
      · exact hlt
      · exact lt_trans hlt (h2 e he)
    · next hlt =>
      rw [Memory.wf_cons]
      refine ⟨h1, fun e he => ?_, ih (fun e he => hne e (by simp [he])) h3⟩
      rcases (Memory.mem_insert c m e).1 he with rfl | he
      · omega
      · exact h2 e he

/-- A write inside the space keeps the canonical form. -/
theorem Memory.wf_write (m : Memory) (a : Nat) (b : Byte) (ha : a < 4096) (h : Memory.wf m = true) :
    Memory.wf (m.write a b) = true := by
  unfold Memory.write
  split
  · exact m.wf_forget a h
  · next hb =>
    exact Memory.wf_insert _ _ (by simp [cellOk, ha, hb]) (m.forget_ne a) (m.wf_forget a h)

/-- A store of several bytes inside the space keeps the canonical form. -/
theorem Memory.wf_writeAll (m : Memory) (a : Nat) (bs : List Byte) (ha : bs = [] ∨ a + bs.length ≤ 4096)
    (h : Memory.wf m = true) : Memory.wf (m.writeAll a bs) = true := by
  induction bs generalizing m a with
  | nil => exact h
  | cons b bs ih =>
    simp only [List.length_cons, List.cons_ne_nil, false_or] at ha
    refine ih _ _ ?_ (m.wf_write a b (by omega) h)
    cases bs with
    | nil => exact Or.inl rfl
    | cons c bs => exact Or.inr (by simp only [List.length_cons] at ha ⊢; omega)

/-- An address with no entry reads as its unlisted value. -/
theorem Memory.read_of_no_entry (m : Memory) (a : Nat) (h : ∀ d ∈ m, d.1 ≠ a) : m.read a = unlistedByte a := by
  induction m with
  | nil => rfl
  | cons d m ih =>
    rw [Memory.read, if_neg (h d (by simp)), ih fun e he => h e (by simp [he])]

/-- The canonical form is canonical: memories that read alike at every address are equal data. -/
theorem Memory.ext_of_read (m m' : Memory) (h : Memory.wf m = true) (h' : Memory.wf m' = true)
    (he : ∀ a, m.read a = m'.read a) : m = m' := by
  induction m generalizing m' with
  | nil =>
    cases m' with
    | nil => rfl
    | cons d m' =>
      have hd := he d.1
      have hok := ((Memory.wf_cons d m').1 h').1
      simp [Memory.read, cellOk] at hd hok
      exact absurd hd.symm hok.2
  | cons c m ih =>
    obtain ⟨hc, hlt, hm⟩ := (Memory.wf_cons c m).1 h
    cases m' with
    | nil =>
      have hd := he c.1
      simp [Memory.read, cellOk] at hd hc
      exact absurd hd hc.2
    | cons d m' =>
      obtain ⟨hd, hlt', hm'⟩ := (Memory.wf_cons d m').1 h'
      simp only [cellOk, Bool.and_eq_true, decide_eq_true_eq, bne_iff_ne] at hc hd
      have key : c.1 = d.1 := by
        rcases Nat.lt_trichotomy c.1 d.1 with hl | he' | hl
        · have := he c.1
          rw [Memory.read, if_pos rfl, Memory.read_of_no_entry (d :: m') c.1] at this
          · exact absurd this hc.2
          · intro e hm''
            rcases List.mem_cons.1 hm'' with rfl | hm''
            · omega
            · have := hlt' e hm''; omega
        · exact he'
        · have := he d.1
          rw [Memory.read_of_no_entry (c :: m) d.1, Memory.read, if_pos rfl] at this
          · exact absurd this.symm hd.2
          · intro e hm''
            rcases List.mem_cons.1 hm'' with rfl | hm''
            · omega
            · have := hlt e hm''; omega
      have hval : c.2 = d.2 := by
        have := he c.1
        rwa [Memory.read, if_pos rfl, Memory.read, if_pos key.symm] at this
      have htail : m = m' := ih m' hm hm' fun a => by
        by_cases ha : c.1 = a
        · rw [Memory.read_of_no_entry m a fun e he' => by have := hlt e he'; omega,
            Memory.read_of_no_entry m' a fun e he' => by have := hlt' e he'; omega]
        · have := he a
          rwa [Memory.read, if_neg ha, Memory.read, if_neg (by omega)] at this
      rw [htail, Prod.ext key hval]

/-! ### The memory Reset leaves -/

theorem Memory.read_filterMap (f : Nat → Byte) (l : List Nat) (q : Nat) :
    Memory.read (l.filterMap fun a => if f a = unlistedByte a then none else some (a, f a)) q =
      if q ∈ l then f q else unlistedByte q := by
  induction l with
  | nil => simp [Memory.read]
  | cons a l ih =>
    by_cases hf : f a = unlistedByte a
    · rw [List.filterMap_cons_none (by simp [hf]), ih]
      by_cases hq : q = a
      · subst hq; simp [hf]
      · simp [hq]
    · rw [List.filterMap_cons_some (b := (a, f a)) (by simp [hf])]
      simp only [Memory.read, ih, List.mem_cons]
      by_cases hq : q = a
      · subst hq; simp
      · simp [hq, Ne.symm hq]

/-- Every byte after Reset: FONT in 0x050 to 0x09F, MEM_FILL elsewhere (10_state.md R42). -/
theorem Memory.read_initial (font : Vector Byte 80) (fill : Byte) (a : Nat) (h : a < 4096) :
    (Memory.initial font fill).read a = initialByte font fill a := by
  rw [Memory.initial, Memory.read_filterMap]
  simp [h]

theorem Memory.wf_filterMap (f : Nat → Byte) (l : List Nat) (hs : l.Pairwise (· < ·)) (hl : ∀ a ∈ l, a < 4096) :
    Memory.wf (l.filterMap fun a => if f a = unlistedByte a then none else some (a, f a)) = true := by
  induction l with
  | nil => rfl
  | cons a l ih =>
    obtain ⟨h1, h2⟩ := List.pairwise_cons.1 hs
    have ih' := ih h2 fun b hb => hl b (by simp [hb])
    by_cases hf : f a = unlistedByte a
    · rwa [List.filterMap_cons_none (by simp [hf])]
    · rw [List.filterMap_cons_some (b := (a, f a)) (by simp [hf]), Memory.wf_cons]
      refine ⟨by simp [cellOk, hf, hl a (by simp)], fun d hd => ?_, ih'⟩
      obtain ⟨b, hb, he⟩ := List.mem_filterMap.1 hd
      split at he
      · cases he
      · cases he; exact h1 b hb

/-- The memory Reset leaves is canonical, for every FONT and MEM_FILL. -/
theorem Memory.wf_initial (font : Vector Byte 80) (fill : Byte) : Memory.wf (Memory.initial font fill) = true := by
  unfold Memory.initial
  exact Memory.wf_filterMap _ _ List.pairwise_lt_range fun a ha => by simpa using ha

/-- `State.reset` lists nothing, which is canonical. -/
theorem State.reset_mem_wf : State.reset.mem.wf = true := rfl

end Sys2Proof.Machine
end

