-- ==== Sys2Proof/Laws/Ops.lean ====
section
/-! SUPPORT. One lemma per shared operation that says everything it can do. -/

namespace Sys2Proof.Machine

/-- What a meaning that may fault answers: the effect, or the state with the latch set (60_exceptions.md R226). -/
theorem State.orRaise_eq_next (s t : State) (r : Except Fault State) :
    s.orRaise r = .next t ↔ r = .ok t ∨ ∃ k, r = .error k ∧ t = s.raise k := by
  cases r <;> simp [State.orRaise, eq_comm]

@[simp] theorem State.orRaise_ok (s t : State) : s.orRaise (.ok t) = .next t := rfl

@[simp] theorem State.orRaise_error (s : State) (k : Fault) : s.orRaise (.error k) = .next (s.raise k) := rfl

/-- `raise` changes the latch alone (R226). -/
theorem State.frame_raise (s : State) (k : Fault) : Frame { fault := true } s (s.raise k) := by
  constructor <;> simp

/-- The range check as an inequality (20_memory.md R64, R76). -/
theorem rangeLegal_iff (base count : Nat) : rangeLegal base count = true ↔ count = 0 ∨ base + count ≤ 4096 := by
  simp [rangeLegal]

/-- A load answers the bytes in order, or MemoryOutOfRange (R62, R76). -/
theorem State.loadBytes_eq (s : State) (base count : Nat) :
    s.loadBytes base count =
      if count = 0 ∨ base + count ≤ 4096 then .ok ((List.range count).map fun r => s.mem.read (base + r))
      else .error .memoryOutOfRange := by
  simp only [State.loadBytes, rangeLegal_iff]

/-- A store answers the state with the bytes written, or MemoryOutOfRange (R63, R76). -/
theorem State.storeBytes_eq (s : State) (base : Nat) (bs : List Byte) :
    s.storeBytes base bs =
      if bs.length = 0 ∨ base + bs.length ≤ 4096 then .ok (s.setMem (s.mem.writeAll base bs))
      else .error .memoryOutOfRange := by
  simp only [State.storeBytes, rangeLegal_iff]

/-- A legal store keeps the canonical form (MEMORY in canonical form; log entry 3). -/
theorem State.storeBytes_wf (s t : State) (base : Nat) (bs : List Byte) (h : s.storeBytes base bs = .ok t)
    (hs : s.mem.wf = true) : t.mem.wf = true := by
  rw [State.storeBytes_eq] at h
  split at h
  · next hr =>
    cases h
    exact Memory.wf_writeAll _ _ _ (hr.imp List.eq_nil_of_length_eq_zero id) hs
  · cases h

/-- A fetch answers the two bytes at PC joined big-endian, or MemoryOutOfRange (R65, R66). -/
theorem State.fetch_eq (s : State) :
    s.fetch = if s.pc.toNat ≤ 4094 then .ok (s.wordAt s.pc.toNat) else .error .memoryOutOfRange := by
  simp only [State.fetch, State.wordAt, wordOfBytes]
  have h : s.pc.toNat + 1 ≤ Config.lastAddr ↔ s.pc.toNat ≤ 4094 := by show _ ≤ 4095 ↔ _; omega
  simp only [h]

/-- A push with room left: the entry at the old SP, SP one more, all else kept (10_state.md R24). -/
theorem State.push_ok (s : State) (w : Word) (h : s.sp.val < 16) :
    s.push w = .ok { s with stack := s.stack.set s.sp.val w h, sp := ⟨s.sp.val + 1, by omega⟩ } := by
  simp [State.push, h]

/-- A push on a full stack (R24, R222). -/
theorem State.push_full (s : State) (w : Word) (h : s.sp.val = 16) : s.push w = .error .stackOverflow := by
  simp [State.push, h]

/-- A pop of a stack in use: PC is the top entry, SP one less, all else kept (R24). -/
theorem State.popPc_ok (s : State) (h : 0 < s.sp.val) :
    s.popPc = .ok { s with sp := ⟨s.sp.val - 1, by omega⟩, pc := s.stack[s.sp.val - 1]'(by omega) } := by
  simp [State.popPc, h]

/-- A pop of an empty stack (R24, R224). -/
theorem State.popPc_empty (s : State) (h : s.sp.val = 0) : s.popPc = .error .stackUnderflow := by
  simp [State.popPc, h]

/-- The bytes of a register dump (42_index_memory.md R175). -/
theorem State.regsUpTo_length (s : State) (x : Reg) : (s.regsUpTo x).length = x.toNat + 1 := by
  simp [State.regsUpTo]

theorem State.regsUpTo_getD (s : State) (x : Reg) (r : Nat) (h : r ≤ x.toNat) (d : Byte) :
    (s.regsUpTo x).getD r d = s.getV (BitVec.ofNat 4 r) := by
  simp only [State.regsUpTo, List.getD_eq_getElem?_getD, List.getElem?_map]
  rw [List.getElem?_range (by omega)]
  rfl

/-- The key wait scans all sixteen keys (44_keyboard_timers.md R204). -/
theorem mem_keyNumbers (k : Nibble) : k ∈ keyNumbers := by
  revert k; decide

/-- Nothing is captured exactly when every key is up (R204). -/
theorem State.lowestKeyDown_eq_none (s : State) : s.lowestKeyDown = none ↔ ∀ k, s.keyDown k = false := by
  simp [State.lowestKeyDown, List.find?_eq_none, mem_keyNumbers]

theorem keyNumbers_sorted : keyNumbers.Pairwise fun a b => a.toNat < b.toNat := by decide

/-- The key captured is down and every lower one is up (R204). -/
theorem State.lowestKeyDown_eq_some (s : State) (k : Nibble) :
    s.lowestKeyDown = some k ↔ s.keyDown k = true ∧ ∀ j, j.toNat < k.toNat → s.keyDown j = false := by
  have key : ∀ l : List Nibble, l.Pairwise (fun a b => a.toNat < b.toNat) →
      (l.find? s.keyDown = some k ↔ k ∈ l ∧ s.keyDown k = true ∧
        ∀ j ∈ l, j.toNat < k.toNat → s.keyDown j = false) := by
    intro l hl
    induction l with
    | nil => simp
    | cons a l ih =>
      obtain ⟨h1, h2⟩ := List.pairwise_cons.1 hl
      by_cases ha : s.keyDown a = true
      · rw [List.find?_cons_of_pos ha]
        constructor
        · intro h
          cases h
          refine ⟨by simp, ha, fun j hj hlt => ?_⟩
          rcases List.mem_cons.1 hj with rfl | hj
          · omega
          · have := h1 j hj; omega
        · rintro ⟨hm, hk, hall⟩
          rcases List.mem_cons.1 hm with rfl | hm
          · rfl
          · have := hall a (by simp) (h1 k hm)
            simp [ha] at this
      · rw [List.find?_cons_of_neg ha, ih h2]
        constructor
        · rintro ⟨hm, hk, hall⟩
          refine ⟨by simp [hm], hk, fun j hj hlt => ?_⟩
          rcases List.mem_cons.1 hj with rfl | hj
          · simpa using ha
          · exact hall j hj hlt
        · rintro ⟨hm, hk, hall⟩
          refine ⟨?_, hk, fun j hj => hall j (by simp [hj])⟩
          rcases List.mem_cons.1 hm with rfl | hm
          · exact absurd hk ha
          · exact hm
  simpa [mem_keyNumbers, State.lowestKeyDown] using key keyNumbers keyNumbers_sorted

/-- Inside the stored range the byte after a store is the stored one (20_memory.md R63). -/
theorem State.byteAfterStore_of_mem (s : State) (count : Nat) (f : Nat → Byte) (a : Nat)
    (h : s.i.toNat ≤ a ∧ a < s.i.toNat + count) : s.byteAfterStore count f a = f (a - s.i.toNat) := if_pos h

/-- Outside it the byte is the one before the store (R63). -/
theorem State.byteAfterStore_of_not_mem (s : State) (count : Nat) (f : Nat → Byte) (a : Nat)
    (h : ¬ (s.i.toNat ≤ a ∧ a < s.i.toNat + count)) : s.byteAfterStore count f a = s.mem.read a := if_neg h

/-- The memory after a store of bytes from `I` upward reads as `byteAfterStore` says, at every address (R63). -/
theorem State.read_store_from_i (s : State) (bs : List Byte) (f : Nat → Byte)
    (hf : ∀ k (h : k < bs.length), bs[k] = f k) (a : Nat) :
    (s.mem.writeAll s.i.toNat bs).read a = s.byteAfterStore bs.length f a := by
  rw [Memory.read_writeAll, State.byteAfterStore]
  split
  · next h => rw [← hf _ (by omega)]; simp [List.getD, show a - s.i.toNat < bs.length by omega]
  · rfl

end Sys2Proof.Machine
end

