-- ==== Sys2Proof/Laws/PerInstr.lean ====
section
/-! SUPPORT. A statement about every instruction as syntax, one lemma per constructor: the encoder's word belongs to a
row of spec/opcode_table.json, the row with the instruction's mnemonic (30_encoding.md R94, R104). -/

namespace Sys2Proof.Laws.RowFit

/-- The word of a well-formed instruction matches the mask and pattern of its own row. -/
def Statement (i : Instr) : Prop :=
  i.wellFormed = true → ∃ r ∈ opcodeRows, r.mnemonic = mnemonicOf i ∧ rowMatches r (encode i) = true

/-- A word of format XYN keeps its first digit under the family mask. -/
theorem wordXYN_family (f x y n : Nibble) : wordXYN f x y n &&& 0xF000#16 = wordXYN f 0 0 0 := by
  apply BitVec.eq_of_getLsbD_eq
  intro j hj
  rw [BitVec.getLsbD_and, getLsbD_wordXYN, getLsbD_wordXYN]
  interval_cases j <;> simp

/-- A word of format XYF keeps its first and last digit under its mask. -/
theorem wordXYN_function (f x y n : Nibble) : wordXYN f x y n &&& 0xF00F#16 = wordXYN f 0 0 n := by
  apply BitVec.eq_of_getLsbD_eq
  intro j hj
  rw [BitVec.getLsbD_and, getLsbD_wordXYN, getLsbD_wordXYN]
  interval_cases j <;> simp

/-- A word of format XKK keeps its first digit under the family mask. -/
theorem wordXKK_family (f x : Nibble) (kk : Byte) : wordXKK f x kk &&& 0xF000#16 = wordXKK f 0 0 := by
  apply BitVec.eq_of_getLsbD_eq
  intro j hj
  rw [BitVec.getLsbD_and, getLsbD_wordXKK, getLsbD_wordXKK]
  interval_cases j <;> simp

/-- A word of format XFF keeps its first digit and its low byte under its mask. -/
theorem wordXKK_function (f x : Nibble) (kk : Byte) : wordXKK f x kk &&& 0xF0FF#16 = wordXKK f 0 kk := by
  apply BitVec.eq_of_getLsbD_eq
  intro j hj
  rw [BitVec.getLsbD_and, getLsbD_wordXKK, getLsbD_wordXKK]
  interval_cases j <;> simp

/-- A word of format NNN keeps its first digit under the family mask. -/
theorem wordNNN_family (f : Nibble) (nnn : Addr12) : wordNNN f nnn &&& 0xF000#16 = wordNNN f 0 := by
  apply BitVec.eq_of_getLsbD_eq
  intro j hj
  rw [BitVec.getLsbD_and, getLsbD_wordNNN, getLsbD_wordNNN]
  interval_cases j <;> simp

/-- A row without exceptions is matched by mask and pattern alone. -/
theorem rowMatches_of_mask (m : String) (k p w : Word) (h : w &&& k = p) : rowMatches ⟨m, k, p, []⟩ w = true := by
  simp [rowMatches, h]

theorem cls : Statement (.cls) := fun _ => ⟨⟨"CLS", 0xFFFF#16, 0x00E0#16, []⟩, by simp [opcodeRows, opcodeRowsLow], rfl, by decide⟩

theorem ret : Statement (.ret) := fun _ => ⟨⟨"RET", 0xFFFF#16, 0x00EE#16, []⟩, by simp [opcodeRows, opcodeRowsLow], rfl, by decide⟩

theorem sys (nnn : Addr12) : Statement (.sys nnn) := by
  intro h
  refine ⟨⟨"SYS_nnn", 0xF000#16, 0x0000#16, [0x00E0#16, 0x00EE#16]⟩, by simp [opcodeRows, opcodeRowsLow], rfl, ?_⟩
  revert h
  revert nnn
  decide +kernel

theorem jp (nnn : Addr12) : Statement (.jp nnn) :=
  fun _ => ⟨⟨"JP_nnn", 0xF000#16, 0x1000#16, []⟩, by simp [opcodeRows, opcodeRowsLow, opcodeRows8, opcodeRowsHigh], rfl,
    rowMatches_of_mask _ _ _ _ (wordNNN_family _ _)⟩

theorem call (nnn : Addr12) : Statement (.call nnn) :=
  fun _ => ⟨⟨"CALL_nnn", 0xF000#16, 0x2000#16, []⟩, by simp [opcodeRows, opcodeRowsLow, opcodeRows8, opcodeRowsHigh], rfl,
    rowMatches_of_mask _ _ _ _ (wordNNN_family _ _)⟩

theorem seVxKk (x : Reg) (kk : Byte) : Statement (.seVxKk x kk) :=
  fun _ => ⟨⟨"SE_Vx__kk", 0xF000#16, 0x3000#16, []⟩, by simp [opcodeRows, opcodeRowsLow, opcodeRows8, opcodeRowsHigh], rfl,
    rowMatches_of_mask _ _ _ _ (wordXKK_family _ _ _)⟩

theorem sneVxKk (x : Reg) (kk : Byte) : Statement (.sneVxKk x kk) :=
  fun _ => ⟨⟨"SNE_Vx__kk", 0xF000#16, 0x4000#16, []⟩, by simp [opcodeRows, opcodeRowsLow, opcodeRows8, opcodeRowsHigh], rfl,
    rowMatches_of_mask _ _ _ _ (wordXKK_family _ _ _)⟩

theorem seVxVy (x y : Reg) : Statement (.seVxVy x y) :=
  fun _ => ⟨⟨"SE_Vx__Vy", 0xF00F#16, 0x5000#16, []⟩, by simp [opcodeRows, opcodeRowsLow, opcodeRows8, opcodeRowsHigh], rfl,
    rowMatches_of_mask _ _ _ _ (wordXYN_function _ _ _ _)⟩

theorem ldVxKk (x : Reg) (kk : Byte) : Statement (.ldVxKk x kk) :=
  fun _ => ⟨⟨"LD_Vx__kk", 0xF000#16, 0x6000#16, []⟩, by simp [opcodeRows, opcodeRowsLow, opcodeRows8, opcodeRowsHigh], rfl,
    rowMatches_of_mask _ _ _ _ (wordXKK_family _ _ _)⟩

theorem addVxKk (x : Reg) (kk : Byte) : Statement (.addVxKk x kk) :=
  fun _ => ⟨⟨"ADD_Vx__kk", 0xF000#16, 0x7000#16, []⟩, by simp [opcodeRows, opcodeRowsLow, opcodeRows8, opcodeRowsHigh], rfl,
    rowMatches_of_mask _ _ _ _ (wordXKK_family _ _ _)⟩

theorem ldVxVy (x y : Reg) : Statement (.ldVxVy x y) :=
  fun _ => ⟨⟨"LD_Vx__Vy", 0xF00F#16, 0x8000#16, []⟩, by simp [opcodeRows, opcodeRowsLow, opcodeRows8, opcodeRowsHigh], rfl,
    rowMatches_of_mask _ _ _ _ (wordXYN_function _ _ _ _)⟩

theorem orVxVy (x y : Reg) : Statement (.orVxVy x y) :=
  fun _ => ⟨⟨"OR_Vx__Vy", 0xF00F#16, 0x8001#16, []⟩, by simp [opcodeRows, opcodeRowsLow, opcodeRows8, opcodeRowsHigh], rfl,
    rowMatches_of_mask _ _ _ _ (wordXYN_function _ _ _ _)⟩

theorem andVxVy (x y : Reg) : Statement (.andVxVy x y) :=
  fun _ => ⟨⟨"AND_Vx__Vy", 0xF00F#16, 0x8002#16, []⟩, by simp [opcodeRows, opcodeRowsLow, opcodeRows8, opcodeRowsHigh], rfl,
    rowMatches_of_mask _ _ _ _ (wordXYN_function _ _ _ _)⟩

theorem xorVxVy (x y : Reg) : Statement (.xorVxVy x y) :=
  fun _ => ⟨⟨"XOR_Vx__Vy", 0xF00F#16, 0x8003#16, []⟩, by simp [opcodeRows, opcodeRowsLow, opcodeRows8, opcodeRowsHigh], rfl,
    rowMatches_of_mask _ _ _ _ (wordXYN_function _ _ _ _)⟩

theorem addVxVy (x y : Reg) : Statement (.addVxVy x y) :=
  fun _ => ⟨⟨"ADD_Vx__Vy", 0xF00F#16, 0x8004#16, []⟩, by simp [opcodeRows, opcodeRowsLow, opcodeRows8, opcodeRowsHigh], rfl,
    rowMatches_of_mask _ _ _ _ (wordXYN_function _ _ _ _)⟩

theorem subVxVy (x y : Reg) : Statement (.subVxVy x y) :=
  fun _ => ⟨⟨"SUB_Vx__Vy", 0xF00F#16, 0x8005#16, []⟩, by simp [opcodeRows, opcodeRowsLow, opcodeRows8, opcodeRowsHigh], rfl,
    rowMatches_of_mask _ _ _ _ (wordXYN_function _ _ _ _)⟩

theorem shrVx (x y : Reg) : Statement (.shrVx x y) :=
  fun _ => ⟨⟨"SHR_Vx", 0xF00F#16, 0x8006#16, []⟩, by simp [opcodeRows, opcodeRowsLow, opcodeRows8, opcodeRowsHigh], rfl,
    rowMatches_of_mask _ _ _ _ (wordXYN_function _ _ _ _)⟩

theorem subnVxVy (x y : Reg) : Statement (.subnVxVy x y) :=
  fun _ => ⟨⟨"SUBN_Vx__Vy", 0xF00F#16, 0x8007#16, []⟩, by simp [opcodeRows, opcodeRowsLow, opcodeRows8, opcodeRowsHigh], rfl,
    rowMatches_of_mask _ _ _ _ (wordXYN_function _ _ _ _)⟩

theorem shlVx (x y : Reg) : Statement (.shlVx x y) :=
  fun _ => ⟨⟨"SHL_Vx", 0xF00F#16, 0x800E#16, []⟩, by simp [opcodeRows, opcodeRowsLow, opcodeRows8, opcodeRowsHigh], rfl,
    rowMatches_of_mask _ _ _ _ (wordXYN_function _ _ _ _)⟩

theorem sneVxVy (x y : Reg) : Statement (.sneVxVy x y) :=
  fun _ => ⟨⟨"SNE_Vx__Vy", 0xF00F#16, 0x9000#16, []⟩, by simp [opcodeRows, opcodeRowsLow, opcodeRows8, opcodeRowsHigh], rfl,
    rowMatches_of_mask _ _ _ _ (wordXYN_function _ _ _ _)⟩

theorem ldI (nnn : Addr12) : Statement (.ldI nnn) :=
  fun _ => ⟨⟨"LD_I__nnn", 0xF000#16, 0xA000#16, []⟩, by simp [opcodeRows, opcodeRowsLow, opcodeRows8, opcodeRowsHigh], rfl,
    rowMatches_of_mask _ _ _ _ (wordNNN_family _ _)⟩

theorem jpV0 (nnn : Addr12) : Statement (.jpV0 nnn) :=
  fun _ => ⟨⟨"JP_V0__nnn", 0xF000#16, 0xB000#16, []⟩, by simp [opcodeRows, opcodeRowsLow, opcodeRows8, opcodeRowsHigh], rfl,
    rowMatches_of_mask _ _ _ _ (wordNNN_family _ _)⟩

theorem rnd (x : Reg) (kk : Byte) : Statement (.rnd x kk) :=
  fun _ => ⟨⟨"RND_Vx__kk", 0xF000#16, 0xC000#16, []⟩, by simp [opcodeRows, opcodeRowsLow, opcodeRows8, opcodeRowsHigh], rfl,
    rowMatches_of_mask _ _ _ _ (wordXKK_family _ _ _)⟩

theorem drw (x y : Reg) (n : Nibble) : Statement (.drw x y n) :=
  fun _ => ⟨⟨"DRW_Vx__Vy__n", 0xF000#16, 0xD000#16, []⟩, by simp [opcodeRows, opcodeRowsLow, opcodeRows8, opcodeRowsHigh], rfl,
    rowMatches_of_mask _ _ _ _ (wordXYN_family _ _ _ _)⟩

theorem skp (x : Reg) : Statement (.skp x) :=
  fun _ => ⟨⟨"SKP_Vx", 0xF0FF#16, 0xE09E#16, []⟩, by simp [opcodeRows, opcodeRowsLow, opcodeRows8, opcodeRowsHigh], rfl,
    rowMatches_of_mask _ _ _ _ (wordXKK_function _ _ _)⟩

theorem sknp (x : Reg) : Statement (.sknp x) :=
  fun _ => ⟨⟨"SKNP_Vx", 0xF0FF#16, 0xE0A1#16, []⟩, by simp [opcodeRows, opcodeRowsLow, opcodeRows8, opcodeRowsHigh], rfl,
    rowMatches_of_mask _ _ _ _ (wordXKK_function _ _ _)⟩

theorem ldVxDt (x : Reg) : Statement (.ldVxDt x) :=
  fun _ => ⟨⟨"LD_Vx__DT", 0xF0FF#16, 0xF007#16, []⟩, by simp [opcodeRows, opcodeRowsLow, opcodeRows8, opcodeRowsHigh], rfl,
    rowMatches_of_mask _ _ _ _ (wordXKK_function _ _ _)⟩

theorem ldVxK (x : Reg) : Statement (.ldVxK x) :=
  fun _ => ⟨⟨"LD_Vx__K", 0xF0FF#16, 0xF00A#16, []⟩, by simp [opcodeRows, opcodeRowsLow, opcodeRows8, opcodeRowsHigh], rfl,
    rowMatches_of_mask _ _ _ _ (wordXKK_function _ _ _)⟩

theorem ldDtVx (x : Reg) : Statement (.ldDtVx x) :=
  fun _ => ⟨⟨"LD_DT__Vx", 0xF0FF#16, 0xF015#16, []⟩, by simp [opcodeRows, opcodeRowsLow, opcodeRows8, opcodeRowsHigh], rfl,
    rowMatches_of_mask _ _ _ _ (wordXKK_function _ _ _)⟩

theorem ldStVx (x : Reg) : Statement (.ldStVx x) :=
  fun _ => ⟨⟨"LD_ST__Vx", 0xF0FF#16, 0xF018#16, []⟩, by simp [opcodeRows, opcodeRowsLow, opcodeRows8, opcodeRowsHigh], rfl,
    rowMatches_of_mask _ _ _ _ (wordXKK_function _ _ _)⟩

theorem addIVx (x : Reg) : Statement (.addIVx x) :=
  fun _ => ⟨⟨"ADD_I__Vx", 0xF0FF#16, 0xF01E#16, []⟩, by simp [opcodeRows, opcodeRowsLow, opcodeRows8, opcodeRowsHigh], rfl,
    rowMatches_of_mask _ _ _ _ (wordXKK_function _ _ _)⟩

theorem ldFVx (x : Reg) : Statement (.ldFVx x) :=
  fun _ => ⟨⟨"LD_F__Vx", 0xF0FF#16, 0xF029#16, []⟩, by simp [opcodeRows, opcodeRowsLow, opcodeRows8, opcodeRowsHigh], rfl,
    rowMatches_of_mask _ _ _ _ (wordXKK_function _ _ _)⟩

theorem ldBVx (x : Reg) : Statement (.ldBVx x) :=
  fun _ => ⟨⟨"LD_B__Vx", 0xF0FF#16, 0xF033#16, []⟩, by simp [opcodeRows, opcodeRowsLow, opcodeRows8, opcodeRowsHigh], rfl,
    rowMatches_of_mask _ _ _ _ (wordXKK_function _ _ _)⟩

theorem ldMemVx (x : Reg) : Statement (.ldMemVx x) :=
  fun _ => ⟨⟨"LD__I___Vx", 0xF0FF#16, 0xF055#16, []⟩, by simp [opcodeRows, opcodeRowsLow, opcodeRows8, opcodeRowsHigh], rfl,
    rowMatches_of_mask _ _ _ _ (wordXKK_function _ _ _)⟩

theorem ldVxMem (x : Reg) : Statement (.ldVxMem x) :=
  fun _ => ⟨⟨"LD_Vx___I", 0xF0FF#16, 0xF065#16, []⟩, by simp [opcodeRows, opcodeRowsLow, opcodeRows8, opcodeRowsHigh], rfl,
    rowMatches_of_mask _ _ _ _ (wordXKK_function _ _ _)⟩

end Sys2Proof.Laws.RowFit
end

