-- ==== Sys2Proof/Laws/Step.lean ====
section
/-! SUPPORT. The phases of a Step, each an equation a proof cites instead of unfolding the sequencer
(10_state.md R31), and what placing a word for the fetch does. -/

namespace Sys2Proof.Machine

/-- A word that decodes is executed with PC advanced (R31). -/
theorem runWord_of_ok (execute : Instr → State → Result) (op : Word) (i : Instr) (s : State)
    (h : decodeWord op = .ok i) : runWord execute op s = execute i s.advance := by
  simp [runWord, decodeFetched, h]

/-- A word that does not decode raises IllegalInstruction with PC advanced (R31, R223). -/
theorem runWord_of_error (execute : Instr → State → Result) (op : Word) (e : DecodeError) (s : State)
    (h : decodeWord op = .error e) : runWord execute op s = .next (s.advance.raise .illegalInstruction) := by
  simp [runWord, decodeFetched, h]

/-- Where a fetch is legal, a Step runs the word at PC (R31). -/
theorem runStep_of_fetch (execute : Instr → State → Result) (s : State) (hf : s.fault = none)
    (hp : s.pc.toNat ≤ 4094) : runStep execute s = runWord execute (s.wordAt s.pc.toNat) s := by
  simp [runStep, runFetched, hf, State.fetch_eq, hp]

/-- Where it is not, a Step only latches MemoryOutOfRange (R31, R66). -/
theorem runStep_of_bad_pc (execute : Instr → State → Result) (s : State) (hf : s.fault = none)
    (hp : 4094 < s.pc.toNat) : runStep execute s = .next (s.raise .memoryOutOfRange) := by
  simp [runStep, runFetched, hf, State.fetch_eq, Nat.not_le.2 hp]

/-- A word placed for the fetch changes memory alone. -/
theorem State.placeWord_eq (s : State) (op : Word) (hp : s.pc.toNat ≤ 4094) :
    s.placeWord op = s.setMem (s.mem.writeAll s.pc.toNat [highByte op, lowByte op]) := by
  simp only [State.placeWord, State.storeBytes_eq]
  rw [if_pos (by simp; omega)]

theorem highByte_append_lowByte (op : Word) : highByte op ++ lowByte op = op := by
  unfold highByte lowByte
  apply BitVec.eq_of_getLsbD_eq
  intro j hj
  simp only [BitVec.getLsbD_append, BitVec.getLsbD_extractLsb']
  by_cases h : j < 8
  · simp [h]
  · have : j - 8 < 8 := by omega
    have h2 : 8 + (j - 8) = j := by omega
    simp [h, this, h2]

/-- The word placed is the word the next Step fetches (log entry 5). -/
theorem State.wordAt_placeWord (s : State) (op : Word) (hp : s.pc.toNat ≤ 4094) :
    (s.placeWord op).wordAt s.pc.toNat = op := by
  rw [State.placeWord_eq s op hp, State.wordAt, State.setMem_mem, Memory.read_writeAll, Memory.read_writeAll]
  simp [highByte_append_lowByte]

end Sys2Proof.Machine
end

