-- ==== Sys2Proof/Tests/Slice0.lean ====
section
/-! SUPPORT. The model's own tests.  Words and expected results are those of spec/95_test_vectors.md (the ids CF, AL,
IM, DSP, KT, IL, S and F in the comments) or follow by hand from the rule cited.  The last part shows, for every
statement with hypotheses, a state and operands that meet them. -/

open Sys2Proof Sys2Proof.Machine

namespace Sys2Proof.Tests

set_option Elab.async false

/-- The state a Step leaves when `op` is the word at PC of `s`. -/
def ran (op : Word) (s : State) : State := (s.withFetchWord 16 op.toNat).stepEvent.1

/-- The core after Reset with `a` in `V[1]` and `b` in `V[2]`. -/
def two (a b : Byte) : State := (State.reset.setV 1#4 a).setV 2#4 b

/-- The core after Reset with `a` in `V[1]` and `f` in `VF`. -/
def flagged (a f : Byte) : State := (State.reset.setV 1#4 a).setV regVF f

/-- The core after Reset with `w` in `I` and `bs` stored from there. -/
def stored (w : Word) (bs : List Byte) : State := (State.reset.setI w).setMem (State.reset.mem.writeAll w.toNat bs)

/-- The core after Reset with `n` stack entries in use. -/
def deep (n : Fin 17) : State := { State.reset with sp := n }

/-- The core after Reset with PC at `w`. -/
def atPc (w : Word) : State := State.reset.setPc w

/-- The pixels of a display at the listed columns and rows. -/
def pixels (d : Display) (l : List (Fin 64 × Fin 32)) : List Bool := l.map fun p => d.pixel p.1 p.2

/-- The answer is the next state `t`. -/
def answers (r : Result) (t : State) : Bool :=
  match r with
  | .next u => decide (u = t)
  | .fault _ => false
  | .refused _ => false

theorem eq_next_of_answers (r : Result) (t : State) (h : answers r t = true) : r = .next t := by
  cases r with
  | next u => exact congrArg _ (of_decide_eq_true h)
  | fault k => cases h
  | refused k => cases h

/-! ### WellFormed: the one field condition refuses the two words of CLS and RET (30_encoding.md R97) -/

theorem test_sys_cls_word_ill_formed : (Instr.sys 0x0E0#12).wellFormed = false := by decide
theorem test_sys_ret_word_ill_formed : (Instr.sys 0x0EE#12).wellFormed = false := by decide
theorem test_sys_other_words_well_formed :
    (Instr.sys 0x000#12).wellFormed = true ∧ (Instr.sys 0xFFF#12).wellFormed = true := by decide

/-! ### Decode: words written out digit by digit from 30_encoding.md R91 and R94 -/

theorem test_decode_control :
    decodeWord 0b0000000011100000#16 = .ok .cls ∧ decodeWord 0b0000000011101110#16 = .ok .ret ∧
    decodeWord 0x00E1#16 = .ok (.sys 0x0E1#12) ∧ decodeWord 0b0001101010111100#16 = .ok (.jp 0xABC#12) ∧
    decodeWord 0x2ABC#16 = .ok (.call 0xABC#12) ∧ decodeWord 0xB123#16 = .ok (.jpV0 0x123#12) := by decide

theorem test_decode_skips :
    decodeWord 0b0011101001000010#16 = .ok (.seVxKk 0xA#4 0x42#8) ∧ decodeWord 0x4A42#16 = .ok (.sneVxKk 0xA#4 0x42#8) ∧
    decodeWord 0x5AB0#16 = .ok (.seVxVy 0xA#4 0xB#4) ∧ decodeWord 0x9AB0#16 = .ok (.sneVxVy 0xA#4 0xB#4) := by decide

theorem test_decode_alu :
    decodeWord 0b0110111101111011#16 = .ok (.ldVxKk 0xF#4 0x7B#8) ∧ decodeWord 0x71FF#16 = .ok (.addVxKk 1#4 0xFF#8) ∧
    decodeWord 0x8120#16 = .ok (.ldVxVy 1#4 2#4) ∧ decodeWord 0x8121#16 = .ok (.orVxVy 1#4 2#4) ∧
    decodeWord 0x8122#16 = .ok (.andVxVy 1#4 2#4) ∧ decodeWord 0x8123#16 = .ok (.xorVxVy 1#4 2#4) ∧
    decodeWord 0b1000000100100100#16 = .ok (.addVxVy 1#4 2#4) ∧ decodeWord 0x8125#16 = .ok (.subVxVy 1#4 2#4) ∧
    decodeWord 0x8126#16 = .ok (.shrVx 1#4 2#4) ∧ decodeWord 0x8127#16 = .ok (.subnVxVy 1#4 2#4) ∧
    decodeWord 0x812E#16 = .ok (.shlVx 1#4 2#4) ∧ decodeWord 0xC1F0#16 = .ok (.rnd 1#4 0xF0#8) := by decide

theorem test_decode_index_and_display :
    decodeWord 0b1010111111111111#16 = .ok (.ldI 0xFFF#12) ∧ decodeWord 0xF11E#16 = .ok (.addIVx 1#4) ∧
    decodeWord 0xF129#16 = .ok (.ldFVx 1#4) ∧ decodeWord 0xF133#16 = .ok (.ldBVx 1#4) ∧
    decodeWord 0b1111001001010101#16 = .ok (.ldMemVx 2#4) ∧ decodeWord 0xF265#16 = .ok (.ldVxMem 2#4) ∧
    decodeWord 0b1101000100100101#16 = .ok (.drw 1#4 2#4 5#4) := by decide

theorem test_decode_keys_and_timers :
    decodeWord 0b1110000110011110#16 = .ok (.skp 1#4) ∧ decodeWord 0xE1A1#16 = .ok (.sknp 1#4) ∧
    decodeWord 0xF107#16 = .ok (.ldVxDt 1#4) ∧ decodeWord 0b1111000100001010#16 = .ok (.ldVxK 1#4) ∧
    decodeWord 0xF115#16 = .ok (.ldDtVx 1#4) ∧ decodeWord 0xF118#16 = .ok (.ldStVx 1#4) := by decide

/-- IL1 to IL9. -/
theorem test_decode_illegal :
    decodeWord 0x5121#16 = .error (.family5 0x5121#16) ∧ decodeWord 0x9121#16 = .error (.family9 0x9121#16) ∧
    decodeWord 0x8128#16 = .error (.family8 0x8128#16) ∧ decodeWord 0x812F#16 = .error (.family8 0x812F#16) ∧
    decodeWord 0xE100#16 = .error (.familyE 0xE100#16) ∧ decodeWord 0xE19F#16 = .error (.familyE 0xE19F#16) ∧
    decodeWord 0xF100#16 = .error (.familyF 0xF100#16) ∧ decodeWord 0xF156#16 = .error (.familyF 0xF156#16) ∧
    decodeWord 0xF1FF#16 = .error (.familyF 0xF1FF#16) := by decide

theorem test_decode_too_short : decode [] = .error .tooShort ∧ decode [0x12#8] = .error .tooShort := by decide

/-- R104: the first byte of a word is its high byte. -/
theorem test_encode_bytes : encodeBytes (.drw 1#4 2#4 5#4) = [0xD1#8, 0x25#8] := by decide

theorem test_table_word : decodeTableWord 16 0xD125 = some (.drw 1#4 2#4 5#4) := by decide

/-! ### Control flow -/

/-- CF2: the word `00E1` is SYS and changes PC alone. -/
theorem test_sys : ran 0x00E1#16 (two 5#8 6#8) = ((two 5#8 6#8).withFetchWord 16 0x00E1).setPc 0x202#16 := by
  decide +kernel

/-- CF4. -/
theorem test_ret :
    (ran 0x00EE#16 { deep 2 with stack := (deep 2).stack.set 1 0x456#16 }).pc = 0x456#16 ∧
    (ran 0x00EE#16 { deep 2 with stack := (deep 2).stack.set 1 0x456#16 }).sp = 1 := by decide +kernel

/-- CF5. -/
theorem test_ret_empty :
    (ran 0x00EE#16 State.reset).fault = some .stackUnderflow ∧ (ran 0x00EE#16 State.reset).pc = 0x202#16 := by
  decide +kernel

/-- CF6. -/
theorem test_jp : (ran 0x1ABC#16 State.reset).pc = 0xABC#16 := by decide +kernel

/-- CF9. -/
theorem test_call :
    (ran 0x2ABC#16 ((deep 15).setPc 0x2F0#16)).pc = 0xABC#16 ∧
    (ran 0x2ABC#16 ((deep 15).setPc 0x2F0#16)).stack[15] = 0x2F2#16 := by decide +kernel

/-- CF10. -/
theorem test_call_full :
    (ran 0x2ABC#16 ((deep 16).setPc 0x2F0#16)).fault = some .stackOverflow ∧
    (ran 0x2ABC#16 ((deep 16).setPc 0x2F0#16)).pc = 0x2F2#16 := by decide +kernel

/-- CF12: the target is not reduced modulo 4096. -/
theorem test_jp_v0 : (ran 0xBFFF#16 (State.reset.setV 0#4 0xFF#8)).pc = 0x10FE#16 := by decide +kernel

/-- CF13, CF14. -/
theorem test_se_byte :
    (ran 0x3A42#16 (State.reset.setV 0xA#4 0x42#8)).pc = 0x204#16 ∧
    (ran 0x3A42#16 (State.reset.setV 0xA#4 0x43#8)).pc = 0x202#16 := by decide +kernel

/-- CF15, CF16. -/
theorem test_sne_byte :
    (ran 0x4A42#16 (State.reset.setV 0xA#4 0x42#8)).pc = 0x202#16 ∧
    (ran 0x4A42#16 (State.reset.setV 0xA#4 0x43#8)).pc = 0x204#16 := by decide +kernel

/-- R128 with the operands of CF17 and CF18 in V1 and V2. -/
theorem test_se_register :
    (ran 0x5120#16 (two 9#8 9#8)).pc = 0x204#16 ∧ (ran 0x5120#16 (two 9#8 8#8)).pc = 0x202#16 := by decide +kernel

/-- R129 with the operands of CF19 and CF20 in V1 and V2. -/
theorem test_sne_register :
    (ran 0x9120#16 (two 9#8 9#8)).pc = 0x202#16 ∧ (ran 0x9120#16 (two 9#8 8#8)).pc = 0x204#16 := by decide +kernel

/-! ### Arithmetic and logic -/

/-- AL1. -/
theorem test_ld_byte : (ran 0x6F7B#16 State.reset).getV regVF = 0x7B#8 := by decide +kernel

/-- AL3: it wraps, and VF keeps its value. -/
theorem test_add_byte :
    (ran 0x7102#16 (flagged 0xFF#8 0x77#8)).getV 1#4 = 0x01#8 ∧
    (ran 0x7102#16 (flagged 0xFF#8 0x77#8)).getV regVF = 0x77#8 := by decide +kernel

/-- AL5. -/
theorem test_copy : (ran 0x8120#16 (two 0x00#8 0xAB#8)).getV 1#4 = 0xAB#8 := by decide +kernel

/-- AL6. -/
theorem test_or :
    (ran 0x8121#16 ((two 0x50#8 0x05#8).setV regVF 9#8)).getV 1#4 = 0x55#8 ∧
    (ran 0x8121#16 ((two 0x50#8 0x05#8).setV regVF 9#8)).getV regVF = 9#8 := by decide +kernel

/-- AL7. -/
theorem test_and : (ran 0x8122#16 (two 0x5C#8 0x0F#8)).getV 1#4 = 0x0C#8 := by decide +kernel

/-- AL8. -/
theorem test_xor : (ran 0x8123#16 (two 0x5C#8 0xFF#8)).getV 1#4 = 0xA3#8 := by decide +kernel

/-- AL10. -/
theorem test_add_carry :
    (ran 0x8124#16 (two 0xFF#8 0x01#8)).getV 1#4 = 0x00#8 ∧ (ran 0x8124#16 (two 0xFF#8 0x01#8)).getV regVF = 1#8 := by
  decide +kernel

/-- AL15: with VF as the destination the carry stays and the sum is lost. -/
theorem test_add_into_flag : (ran 0x8F14#16 (flagged 0x20#8 0x10#8)).getV regVF = 0x00#8 := by decide +kernel

/-- AL19: equal operands, no borrow. -/
theorem test_sub_equal :
    (ran 0x8125#16 (two 0x10#8 0x10#8)).getV 1#4 = 0x00#8 ∧ (ran 0x8125#16 (two 0x10#8 0x10#8)).getV regVF = 1#8 := by
  decide +kernel

/-- AL20. -/
theorem test_sub_borrow :
    (ran 0x8125#16 (two 0x00#8 0x01#8)).getV 1#4 = 0xFF#8 ∧ (ran 0x8125#16 (two 0x00#8 0x01#8)).getV regVF = 0#8 := by
  decide +kernel

/-- AL25. -/
theorem test_subn_borrow :
    (ran 0x8127#16 (two 0x20#8 0x10#8)).getV 1#4 = 0xF0#8 ∧ (ran 0x8127#16 (two 0x20#8 0x10#8)).getV regVF = 0#8 := by
  decide +kernel

/-- AL28. -/
theorem test_subn : (ran 0x8127#16 (two 0x10#8 0x30#8)).getV 1#4 = 0x20#8 := by decide +kernel

/-- AL29: `y` is ignored. -/
theorem test_shr :
    (ran 0x8126#16 (two 0x04#8 0xFF#8)).getV 1#4 = 0x02#8 ∧ (ran 0x8126#16 (two 0x04#8 0xFF#8)).getV regVF = 0#8 := by
  decide +kernel

/-- AL31. -/
theorem test_shr_out :
    (ran 0x8106#16 (two 0xFF#8 0#8)).getV 1#4 = 0x7F#8 ∧ (ran 0x8106#16 (two 0xFF#8 0#8)).getV regVF = 1#8 := by
  decide +kernel

/-- AL35: `y` is ignored. -/
theorem test_shl :
    (ran 0x812E#16 (two 0x04#8 0xFF#8)).getV 1#4 = 0x08#8 ∧ (ran 0x812E#16 (two 0x04#8 0xFF#8)).getV regVF = 0#8 := by
  decide +kernel

/-- AL36. -/
theorem test_shl_out :
    (ran 0x810E#16 (two 0x80#8 0#8)).getV 1#4 = 0x00#8 ∧ (ran 0x810E#16 (two 0x80#8 0#8)).getV regVF = 1#8 := by
  decide +kernel

/-- AL42: under the mask 0 the result is 0, whatever byte is drawn. -/
theorem test_rnd_mask_zero : exec (.rnd 1#4 0x00#8) (two 0x55#8 0#8) = .next ((two 0x00#8 0#8).countDraw) := by
  have h : Config.rndByte 0 &&& 0x00#8 = 0x00#8 := BitVec.and_zero
  show Host.Outcome.next (((two 0x55#8 0#8).setV 1#4 (Config.rndByte 0 &&& 0x00#8)).countDraw) = _
  rw [h]; exact eq_next_of_answers _ _ (by decide +kernel)

/-- R36: each RND draws one byte. -/
theorem test_rnd_draws : (ran 0xC1F0#16 State.reset).draws = 1 := by decide +kernel

/-! ### Index register and memory -/

/-- IM2. -/
theorem test_ld_index : (ran 0xAFFF#16 State.reset).i = 0xFFF#16 := by decide +kernel

/-- IM4. -/
theorem test_add_index_wraps : (ran 0xF11E#16 ((two 2#8 0#8).setI 0xFFFF#16)).i = 0x0001#16 := by decide +kernel

/-- IM5. -/
theorem test_add_index_no_flag : (ran 0xF11E#16 ((flagged 0xFF#8 7#8).setI 0x100#16)).getV regVF = 7#8 := by decide +kernel

/-- IM11: no masking to a digit. -/
theorem test_glyph : (ran 0xF129#16 (two 0xFF#8 0#8)).i = 0x54B#16 := by decide +kernel

/-- S4: 234 gives the bytes 2, 3, 4. -/
theorem test_bcd :
    (ran 0xF133#16 ((two 234#8 0#8).setI 0x300#16)).mem =
      [(0x200, 0xF1#8), (0x201, 0x33#8), (0x300, 2#8), (0x301, 3#8), (0x302, 4#8)] := by decide +kernel

/-- IM14: no byte is stored. -/
theorem test_bcd_out_of_range :
    (ran 0xF133#16 ((two 0x7B#8 0#8).setI 0xFFE#16)).fault = some .memoryOutOfRange ∧
    (ran 0xF133#16 ((two 0x7B#8 0#8).setI 0xFFE#16)).mem = [(0x200, 0xF1#8), (0x201, 0x33#8)] := by decide +kernel

/-- IM20 with V0 = 0: V0 to V2 are stored, `I` keeps its value. -/
theorem test_dump :
    (ran 0xF255#16 ((two 2#8 3#8).setI 0x400#16)).mem =
      [(0x200, 0xF2#8), (0x201, 0x55#8), (0x401, 2#8), (0x402, 3#8)] ∧
    (ran 0xF255#16 ((two 2#8 3#8).setI 0x400#16)).i = 0x400#16 := by decide +kernel

/-- IM19. -/
theorem test_dump_out_of_range : (ran 0xFF55#16 (State.reset.setI 0xFF1#16)).fault = some .memoryOutOfRange := by
  decide +kernel

/-- IM24: the bytes of the font's first glyphs, VF written last. -/
theorem test_load_font :
    (ran 0xFF65#16 (State.reset.setI 0x050#16)).v.toList =
      [0xF0#8, 0x90#8, 0x90#8, 0x90#8, 0xF0#8, 0x20#8, 0x60#8, 0x20#8, 0x20#8, 0x70#8, 0xF0#8, 0x10#8, 0xF0#8, 0x80#8,
        0xF0#8, 0xF0#8] := by decide +kernel

/-- IM21: V3 keeps its value. -/
theorem test_load :
    (ran 0xF265#16 ((stored 0x400#16 [0xA1#8, 0xA2#8, 0xA3#8, 0xA4#8]).setV 3#4 0x99#8)).getV 2#4 = 0xA3#8 ∧
    (ran 0xF265#16 ((stored 0x400#16 [0xA1#8, 0xA2#8, 0xA3#8, 0xA4#8]).setV 3#4 0x99#8)).getV 3#4 = 0x99#8 := by
  decide +kernel

/-! ### Display -/

/-- DSP1. -/
theorem test_cls :
    (ran 0x00E0#16 (State.reset.setDisp (Display.blank.flip 63 31))).disp.pixel 63 31 = false ∧
    (ran 0x00E0#16 State.reset).dirty = true := by decide +kernel

/-- DSP4: each pixel wraps by itself. -/
theorem test_drw_wraps :
    pixels (ran 0xD121#16 ((stored 0x300#16 [0xFF#8]).setV 1#4 0x3C#8)).disp
      [(59, 0), (60, 0), (63, 0), (0, 0), (3, 0), (4, 0), (0, 1)] = [false, true, true, true, true, false, false] := by
  decide +kernel

/-- DSP6: a 1 bit over a lit pixel is a collision. -/
theorem test_drw_collides :
    pixels (ran 0xD011#16 ((stored 0x300#16 [0xC0#8]).setDisp (Display.blank.flip 1 0))).disp [(0, 0), (1, 0)] =
      [true, false] ∧
    (ran 0xD011#16 ((stored 0x300#16 [0xC0#8]).setDisp (Display.blank.flip 1 0))).getV regVF = 1#8 := by decide +kernel

/-! ### Keyboard and timers -/

/-- KT1, KT2. -/
theorem test_skp :
    (ran 0xE19E#16 ((two 0x1A#8 0#8).setKey 0xA#4 true)).pc = 0x204#16 ∧ (ran 0xE19E#16 (two 0x1A#8 0#8)).pc = 0x202#16 := by
  decide +kernel

/-- KT4, KT5. -/
theorem test_sknp :
    (ran 0xE1A1#16 ((two 0x1A#8 0#8).setKey 0xA#4 true)).pc = 0x202#16 ∧ (ran 0xE1A1#16 (two 0x1A#8 0#8)).pc = 0x204#16 := by
  decide +kernel

/-- KT6. -/
theorem test_ld_dt : (ran 0xF107#16 (State.reset.setDt 0x2A#8)).getV 1#4 = 0x2A#8 := by decide +kernel

/-- KT7. -/
theorem test_set_dt : (ran 0xF115#16 (two 0x3C#8 0#8)).dt = 0x3C#8 := by decide +kernel

/-- KT9. -/
theorem test_set_st :
    (ran 0xF118#16 (two 2#8 0#8)).st = 2#8 ∧ (ran 0xF118#16 (two 2#8 0#8)).tone = true := by decide +kernel

/-- KT11: the least key that is down is captured. -/
theorem test_key_captured :
    (ran 0xF10A#16 ((State.reset.setKey 7#4 true).setKey 3#4 true)).wait = .keyCaptured 3#4 ∧
    (ran 0xF10A#16 ((State.reset.setKey 7#4 true).setKey 3#4 true)).pc = 0x200#16 := by decide +kernel

/-- KT13: the captured key is committed, another key that is down is not looked at. -/
theorem test_key_committed :
    (ran 0xF10A#16 (((two 0xEE#8 0#8).setKey 7#4 true).setWait (.keyCaptured 3#4))).getV 1#4 = 3#8 ∧
    (ran 0xF10A#16 (((two 0xEE#8 0#8).setKey 7#4 true).setWait (.keyCaptured 3#4))).pc = 0x202#16 := by decide +kernel

/-! ### The Step and the host's events -/

/-- IL10. -/
theorem test_fetch_out_of_range :
    (atPc 0xFFF#16).stepEvent = ((atPc 0xFFF#16).raise .memoryOutOfRange, .fault .memoryOutOfRange) := by
  decide +kernel

/-- IL12: the last legal fetch. -/
theorem test_last_fetch :
    (ran 0x6155#16 (atPc 0xFFE#16)).getV 1#4 = 0x55#8 ∧ (ran 0x6155#16 (atPc 0xFFE#16)).pc = 0x1000#16 := by decide +kernel

/-- IL1: PC is advanced. -/
theorem test_illegal_step :
    (ran 0x5121#16 State.reset).fault = some .illegalInstruction ∧ (ran 0x5121#16 State.reset).pc = 0x202#16 := by
  decide +kernel

/-- IL13. -/
theorem test_halted_step : step (State.reset.raise .stackOverflow) = .fault .stackOverflow := rfl

/-- KT15. -/
theorem test_tick :
    ((State.reset.setDt 2#8).setSt 1#8).tick.dt = 1#8 ∧ ((State.reset.setDt 2#8).setSt 1#8).tick.tone = false := by decide

/-- KT16 and KT17. -/
theorem test_tick_unchanged :
    State.reset.tick = State.reset ∧
    ((State.reset.setDt 5#8).raise .illegalInstruction).tick = (State.reset.setDt 5#8).raise .illegalInstruction := by
  decide +kernel

/-- KT18. -/
theorem test_set_key :
    (State.reset.setKey 0xF#4 true).keyDown 0xF#4 = true ∧
    (State.reset.setKey 0xF#4 true).setKey 0xF#4 false = State.reset := by decide +kernel

/-- R28: the row-major index of the last pixel. -/
theorem test_pixel_index : pixelIndex 63 31 = 2047 := by decide

/-! ### Witnesses: the hypotheses of each statement can be met -/

theorem test_hyp_decode_reads_every_pattern : (0x0E1#12 : Addr12) ≠ 0x0E0#12 ∧ (0x0E1#12 : Addr12) ≠ 0x0EE#12 := by decide
theorem test_hyp_decode_of_encode : (Instr.sys 0x0EF#12).wellFormed = true ∧ (Instr.drw 15#4 15#4 15#4).wellFormed = true := by
  decide
theorem test_hyp_encode_of_decode : decodeWord 0x81F6#16 = .ok (.shrVx 1#4 15#4) := by decide
theorem test_hyp_rows_disjoint : ∃ r ∈ opcodeRows, rowMatches r 0x00E0#16 = true := by decide
theorem test_hyp_rows_agree :
    (∃ r ∈ opcodeRows, rowMatches r 0x0EE0#16 = true) ∧ ∀ r ∈ opcodeRows, rowMatches r 0x5121#16 = false := by decide

/-- The word `op` at the last address a fetch may start from. -/
def lastWord (op : Word) : State := (atPc 0xFFE#16).placeWord op

theorem test_hyp_step_runs :
    (lastWord 0xE19E#16).fault = none ∧ (lastWord 0xE19E#16).pc.toNat ≤ 4094 ∧
    decodeWord ((lastWord 0xE19E#16).mem.read (lastWord 0xE19E#16).pc.toNat ++
      (lastWord 0xE19E#16).mem.read ((lastWord 0xE19E#16).pc.toNat + 1)) = .ok (.skp 1#4) := by decide +kernel
theorem test_hyp_fetch_beyond : (atPc 0xFFF#16).fault = none ∧ 4094 < (atPc 0xFFF#16).pc.toNat := by decide
theorem test_hyp_illegal_word :
    (lastWord 0xE19F#16).fault = none ∧ (lastWord 0xE19F#16).pc.toNat ≤ 4094 ∧
    decodeWord ((lastWord 0xE19F#16).mem.read (lastWord 0xE19F#16).pc.toNat ++
      (lastWord 0xE19F#16).mem.read ((lastWord 0xE19F#16).pc.toNat + 1)) = .error (.familyE 0xE19F#16) := by
  decide +kernel
theorem test_hyp_halted : (State.reset.raise .stackUnderflow).fault = some .stackUnderflow := by decide
theorem test_hyp_not_halted : State.reset.fault = none := by decide

/-- R230 at the boundary of each row: CALL, RET, DRW, LD B, LD [I], LD Vx,[I]. -/
theorem test_hyp_execute_faults :
    (deep 16).fault = none ∧ faultOf (.call 0#12) (deep 16) ≠ none ∧ faultOf (.call 0#12) (deep 15) = none ∧
    faultOf .ret (deep 0) ≠ none ∧ faultOf .ret (deep 1) = none ∧
    faultOf (.drw 0#4 0#4 0#4) (State.reset.setI 0xFFFF#16) = none ∧
    faultOf (.drw 0#4 0#4 1#4) (State.reset.setI 0xFFF#16) = none ∧
    faultOf (.drw 0#4 0#4 1#4) (State.reset.setI 0x1000#16) ≠ none ∧
    faultOf (.ldBVx 0#4) (State.reset.setI 0xFFD#16) = none ∧ faultOf (.ldBVx 0#4) (State.reset.setI 0xFFE#16) ≠ none ∧
    faultOf (.ldMemVx 15#4) (State.reset.setI 0xFF0#16) = none ∧
    faultOf (.ldMemVx 15#4) (State.reset.setI 0xFF1#16) ≠ none ∧
    faultOf (.ldVxMem 0#4) (State.reset.setI 0xFFF#16) = none ∧
    faultOf (.ldVxMem 0#4) (State.reset.setI 0x1000#16) ≠ none := by decide

/-- A Step of either report: ok and a fault. -/
theorem test_hyp_step_report :
    State.reset.stepEvent.2 = .ok ∧ (atPc 0xFFF#16).stepEvent.2 = .fault .memoryOutOfRange := by decide +kernel

theorem test_hyp_sys :
    (0xFFF#12 : Addr12) ≠ 0x0E0#12 ∧ (0xFFF#12 : Addr12) ≠ 0x0EE#12 ∧ (lastWord 0x0FFF#16).fault = none ∧
    (lastWord 0x0FFF#16).pc.toNat ≤ 4094 ∧
    (lastWord 0x0FFF#16).mem.read (lastWord 0x0FFF#16).pc.toNat ++
      (lastWord 0x0FFF#16).mem.read ((lastWord 0x0FFF#16).pc.toNat + 1) = wordNNN 0x0#4 0xFFF#12 := by decide +kernel

/-- The least and the greatest target above 4094. -/
theorem test_hyp_offset_jump :
    State.reset.fault = none ∧ 4094 < (0xFFF#12 : Addr12).toNat + (State.reset.getV 0#4).toNat ∧
    4094 < (0xFFF#12 : Addr12).toNat + ((State.reset.setV 0#4 0xFF#8).getV 0#4).toNat := by decide
theorem test_hyp_call : (deep 15).sp.val < 16 ∧ (deep 0).sp.val < 16 := by decide
theorem test_hyp_return : 0 < (deep 1).sp.val ∧ 0 < (deep 16).sp.val := by decide
theorem test_hyp_stack_faults : (deep 16).sp.val = 16 ∧ (deep 0).sp.val = 0 := by decide

/-- The flag writers: a destination that is not VF, and one that is. -/
theorem test_hyp_flag_writers : (14#4 : Reg) ≠ regVF ∧ ¬ (15#4 : Reg) ≠ regVF := by decide
theorem test_hyp_rnd : (0xFE#8 : Byte).getLsbD 0 = false ∧ (0xFF#8 : Byte) = 0xFF#8 := by decide
theorem test_hyp_add_then_sub : (0#4 : Reg) ≠ 14#4 ∧ (0#4 : Reg) ≠ regVF ∧ (14#4 : Reg) ≠ regVF := by decide
theorem test_hyp_others_leave_flag :
    exec (.addVxKk 14#4 0xFF#8) State.reset = .next (State.reset.setV 14#4 0xFF#8) ∧
    mayWriteVF (.addVxKk 14#4 0xFF#8) = false := ⟨eq_next_of_answers _ _ (by decide +kernel), by decide⟩

theorem test_hyp_bcd : (State.reset.setI 0xFFD#16).i.toNat + 2 ≤ 4095 := by decide

/-- The last legal base for one register and for sixteen: LD [I], Vx, LD Vx, [I] and the two together. -/
theorem test_hyp_dump_and_load :
    (State.reset.setI 0xFFF#16).i.toNat + (0#4 : Reg).toNat ≤ 4095 ∧
    (State.reset.setI 0xFF0#16).i.toNat + (15#4 : Reg).toNat ≤ 4095 ∧ (15#4 : Reg).toNat ≤ (15#4 : Reg).toNat := by decide

/-- Both stores at the last legal base, and the last address a fetch may start from, whose bytes lie in both ranges. -/
theorem test_hyp_stores_are_seen :
    (State.reset.setI 0xFFE#16).i.toNat + (1#4 : Reg).toNat ≤ 4095 ∧ (State.reset.setI 0xFFD#16).i.toNat + 2 ≤ 4095 ∧
    (0xFFE#16 : Word).toNat ≤ 4094 := by decide

/-- R74 with the bytes of program P5 of spec/95_test_vectors.md: the fetch at `I`, and those that meet one stored byte. -/
theorem test_store_then_fetch :
    let t := (ran 0xF155#16 (((State.reset.setV 0#4 0x62#8).setV 1#4 0x77#8).setI 0x208#16))
    (t.setPc 0x208#16).fetch = .ok 0x6277#16 ∧ (t.setPc 0x207#16).fetch = .ok 0x0062#16 ∧
    (t.setPc 0x209#16).fetch = .ok 0x7700#16 := by decide +kernel

/-- S4: after LD B of 234 the word at `I + 1` is 03 04. -/
theorem test_bcd_then_fetch :
    ((ran 0xF133#16 ((two 234#8 0#8).setI 0x300#16)).setPc 0x301#16).fetch = .ok 0x0304#16 := by decide +kernel

/-- DRW at the last legal base of a full sprite, and with no row. -/
theorem test_hyp_draw :
    ((15#4 : Nibble).toNat = 0 ∨ (State.reset.setI 0xFF1#16).i.toNat + (15#4 : Nibble).toNat - 1 ≤ 4095) ∧
    ((0#4 : Nibble).toNat = 0 ∨ (State.reset.setI 0xFFFF#16).i.toNat + (0#4 : Nibble).toNat - 1 ≤ 4095) := by decide

/-- A pixel the sprite of DSP3 hits, which is lit there or not, and one it does not hit. -/
theorem test_hyp_draw_hits :
    (stored 0x300#16 [0x80#8]).spriteHits 0#4 0#4 1#4 0 0 ∧ ¬ (stored 0x300#16 [0x80#8]).spriteHits 0#4 0#4 1#4 63 31 := by
  refine ⟨⟨0, 0, by decide, by decide, by decide, by decide, by decide⟩, ?_⟩
  rintro ⟨r, c, hr, hc, -, h, -⟩
  have h0 : ((stored 0x300#16 [0x80#8]).getV 0#4).toNat = 0 := by decide
  rw [h0] at h
  simp at h
  omega
theorem test_hyp_draw_twice :
    (0#4 : Reg) ≠ regVF ∧ (1#4 : Reg) ≠ regVF ∧ ((1#4 : Nibble).toNat = 0 ∨ State.reset.i.toNat + (1#4 : Nibble).toNat - 1 ≤ 4095) ∧
    ∀ px py, State.reset.disp.pixel px py = false :=
  ⟨by decide, by decide, by decide, fun px py => by simp [State.reset, Display.pixel]⟩

/-- The four clauses of the key wait. -/
theorem test_hyp_key_wait :
    (State.reset.wait = .idle ∧ ∀ k, State.reset.keyDown k = false) ∧
    ((State.reset.setKey 15#4 true).wait = .idle ∧ (State.reset.setKey 15#4 true).keyDown 15#4 = true ∧
      ∀ j : Nibble, j.toNat < (15#4 : Nibble).toNat → (State.reset.setKey 15#4 true).keyDown j = false) ∧
    (((State.reset.setKey 0#4 true).setWait (.keyCaptured 0#4)).wait = .keyCaptured 0#4 ∧
      ((State.reset.setKey 0#4 true).setWait (.keyCaptured 0#4)).keyDown 0#4 = true) ∧
    ((State.reset.setWait (.keyCaptured 15#4)).wait = .keyCaptured 15#4 ∧
      (State.reset.setWait (.keyCaptured 15#4)).keyDown 15#4 = false) := by decide +kernel
theorem test_hyp_key_wait_steps :
    (lastWord 0xF50A#16).fault = none ∧ (lastWord 0xF50A#16).wait = .idle ∧ (∀ k, (lastWord 0xF50A#16).keyDown k = false) ∧
    (lastWord 0xF50A#16).pc.toNat ≤ 4094 ∧
    decodeWord ((lastWord 0xF50A#16).wordAt (lastWord 0xF50A#16).pc.toNat) = .ok (.ldVxK 5#4) := by decide +kernel

theorem test_hyp_set_key : (0#4 : Nibble) ≠ 15#4 := by decide
theorem test_hyp_load_program :
    (List.replicate 3584 0xFF#8).length ≤ 3584 ∧ 3584 < (List.replicate 3585 0xFF#8).length ∧ ([] : List Byte).length ≤ 3584 := by
  simp only [List.length_replicate, List.length_nil]; decide
theorem test_hyp_load_program_byte : 3583 < (List.replicate 3584 0xFF#8).length := by
  simp only [List.length_replicate]; decide
theorem test_hyp_reset_bytes :
    (79 < 80) ∧ (0x04F < 4096 ∧ (0x04F < 0x050 ∨ 0x09F < 0x04F)) ∧ (0x0A0 < 4096 ∧ (0x0A0 < 0x050 ∨ 0x09F < 0x0A0)) ∧ 15 < 16 := by
  decide

/-- An image of one byte: an address below FONT, the last below the image, the first above it. -/
theorem test_hyp_launch_bytes :
    [0x12#8].length ≤ 3584 ∧ 0 < [0x12#8].length ∧ 0x04F < 0x050 ∧ (0x09F < 0x1FF ∧ 0x1FF < 0x200) ∧
    0x200 + [0x12#8].length ≤ 0x201 := by decide

theorem test_hyp_ended : (State.reset.placeWord 0x1200#16).ended :=
  ⟨by decide, by decide, by decide, 0x200#12, by decide, by decide⟩
theorem test_hyp_inv :
    (State.reset.placeWord 0x6105#16).Inv ∧
    step (State.reset.placeWord 0x6105#16) = .next (((State.reset.placeWord 0x6105#16).setV 1#4 5#8).setPc 0x202#16) :=
  ⟨⟨by show Memory.wf _ = true; decide, by decide, fun j h => by rw [show (State.reset.placeWord 0x6105#16).stack = Vector.replicate 16 0#16 from rfl]; simp⟩,
    eq_next_of_answers _ _ (by decide +kernel)⟩

/-- A key is captured at an LD V1, K, and a Step and a Tick can follow. -/
theorem test_hyp_captured :
    (((State.reset.setKey 3#4 true).placeWord 0xF10A#16).setWait (.keyCaptured 3#4)).waitAtItsInstruction ∧
    step (((State.reset.setKey 3#4 true).placeWord 0xF10A#16).setWait (.keyCaptured 3#4)) =
      .next (((State.reset.setKey 3#4 true).placeWord 0xF10A#16).setWait (.keyCaptured 3#4)) ∧
    ∀ image, HostEvent.tick ≠ .loadProgram image :=
  ⟨fun _ _ => ⟨by decide, 1#4, by decide⟩, eq_next_of_answers _ _ (by decide +kernel), fun _ h => by cases h⟩
theorem test_hyp_halted_event :
    (State.reset.raise .illegalInstruction).fault = some .illegalInstruction ∧
    ∀ font fill, HostEvent.clearDirty ≠ .reset font fill := ⟨by decide, fun _ _ h => by cases h⟩

/-- Each register of R43's table is changed by some instruction listed for it. -/
theorem test_hyp_listed_index :
    exec (.ldI 1#12) State.reset = .next (State.reset.setI 1#16) ∧ (State.reset.setI 1#16).i ≠ State.reset.i :=
  ⟨eq_next_of_answers _ _ (by decide +kernel), by decide⟩
theorem test_hyp_listed_delay :
    exec (.ldDtVx 1#4) (two 5#8 0#8) = .next ((two 5#8 0#8).setDt 5#8) ∧ ((two 5#8 0#8).setDt 5#8).dt ≠ (two 5#8 0#8).dt :=
  ⟨eq_next_of_answers _ _ (by decide +kernel), by decide⟩
theorem test_hyp_listed_sound :
    exec (.ldStVx 1#4) (two 5#8 0#8) = .next ((two 5#8 0#8).setSt 5#8) ∧ ((two 5#8 0#8).setSt 5#8).st ≠ (two 5#8 0#8).st :=
  ⟨eq_next_of_answers _ _ (by decide +kernel), by decide⟩
theorem test_hyp_listed_stack :
    exec (.call 0x300#12) State.reset =
      .next { State.reset with sp := 1, pc := 0x300#16, stack := State.reset.stack.set 0 0x200#16 } ∧
    State.reset.stack.set 0 0x200#16 ≠ State.reset.stack ∧ (1 : Fin 17) ≠ State.reset.sp :=
  ⟨eq_next_of_answers _ _ (by decide +kernel), by decide +kernel, by decide⟩
theorem test_hyp_listed_display :
    exec .cls (State.reset.setDisp (Display.blank.flip 0 0)) =
      .next (((State.reset.setDisp (Display.blank.flip 0 0)).setDisp Display.blank).setDirty true) ∧
    Display.blank ≠ Display.blank.flip 0 0 ∧ true ≠ State.reset.dirty :=
  ⟨eq_next_of_answers _ _ (by decide +kernel), by decide +kernel, by decide⟩
theorem test_hyp_listed_wait :
    exec (.ldVxK 1#4) ((State.reset.setKey 3#4 true).setPc 0x202#16) =
      .next ((State.reset.setKey 3#4 true).setWait (.keyCaptured 3#4)) ∧ KeyWait.keyCaptured 3#4 ≠ KeyWait.idle :=
  ⟨eq_next_of_answers _ _ (by decide +kernel), by decide⟩
theorem test_hyp_listed_memory :
    exec (.ldBVx 1#4) ((two 7#8 0#8).setI 0x300#16) = .next (((two 7#8 0#8).setI 0x300#16).setMem [(0x302, 7#8)]) ∧
    Memory.read [(0x302, 7#8)] 0x302 ≠ (two 7#8 0#8).mem.read 0x302 :=
  ⟨eq_next_of_answers _ _ (by decide +kernel), by decide⟩
theorem test_hyp_never_read : exec (.addVxKk 1#4 1#8) State.reset = .next (State.reset.setV 1#4 1#8) :=
  eq_next_of_answers _ _ (by decide +kernel)

/-- Two states that differ in a stale entry. -/
theorem test_hyp_stale_stack :
    Frame { stack := fun j => decide ((deep 1).sp.val ≤ j) } (deep 1) { deep 1 with stack := (deep 1).stack.set 1 0x456#16 } ∧
    exec (.jp 0x300#12) (deep 1) = .next ((deep 1).setPc 0x300#16) ∧
    (deep 1).stack.set 1 0x456#16 ≠ (deep 1).stack := by
  refine ⟨?_, eq_next_of_answers _ _ (by decide +kernel), by decide +kernel⟩
  constructor <;> intros <;> try rfl
  next j h hj =>
    have h1 : j ≠ 1 := by rintro rfl; exact absurd hj (by decide)
    exact Vector.getElem_set_ne (by omega) h (Ne.symm h1)

end Sys2Proof.Tests
end

section
/-! PROOFS. What the execute phase and a Step can answer, and the invariant of 10_state.md R46 kept by every Step and
every event of the host. -/

namespace Sys2Proof.Machine

/-! ### The answers of the execute phase and of a Step -/

/-- A meaning that may fault answers a next state in both cases (60_exceptions.md R226). -/
theorem State.orRaise_answers (s : State) (r : Except Fault State) : ∃ t, s.orRaise r = .next t := by
  cases r with
  | ok t => exact ⟨t, rfl⟩
  | error k => exact ⟨s.raise k, rfl⟩

/-- What holds with any fault latched and after every whole effect holds of the answer. -/
theorem State.orRaise_induction {P : State → Prop} {s t : State} {r : Except Fault State}
    (h : s.orRaise r = .next t) (raised : ∀ k, P (s.raise k)) (whole : ∀ u, r = .ok u → P u) : P t := by
  obtain hr | ⟨k, -, rfl⟩ := (s.orRaise_eq_next t r).1 h
  · exact whole t hr
  · exact raised k

/-- A mapped answer is whole only when the operation's own answer is, and is then the map of it. -/
theorem Except.map_eq_ok {α β : Type} {f : α → β} {r : Except Fault α} {b : β} (h : r.map f = .ok b) :
    ∃ a, r = .ok a ∧ f a = b := by
  cases r with
  | ok a => exact ⟨a, rfl, Except.ok.inj h⟩
  | error k => cases h

/-- The key wait answers the capture of the least key down, or the repetition of its instruction, or the commit of the
captured key (44_keyboard_timers.md R204, C4). -/
theorem execLdVxK_eq_next (s t : State) (x : Reg) :
    execLdVxK x s = .next t ↔
      (s.wait = .idle ∧ ∃ k, s.lowestKeyDown = some k ∧ t = (s.setWait (.keyCaptured k)).rewind) ∨
      ((s.wait = .idle ∧ s.lowestKeyDown = none ∨ ∃ k, s.wait = .keyCaptured k ∧ s.keyDown k = true) ∧
        t = s.rewind) ∨
      (∃ k, s.wait = .keyCaptured k ∧ s.keyDown k = false ∧ t = (s.setV x (keyValue k)).setWait .idle) := by
  unfold execLdVxK
  cases s.wait with
  | idle => cases hl : s.lowestKeyDown <;> simp [State.waitIdle, hl, eq_comm (a := t)]
  | keyCaptured k => cases hk : s.keyDown k <;> simp [State.waitCaptured, hk, eq_comm (a := t)]

/-- Every instruction answers a next state, from every state (10_state.md R31). -/
theorem exec_answers (i : Instr) (s : State) : ∃ t, exec i s = .next t := by
  cases i with
  | ret | call nnn | drw x y n | ldBVx x | ldMemVx x | ldVxMem x => exact s.orRaise_answers _
  | ldVxK x =>
    show ∃ t, execLdVxK x s = .next t
    unfold execLdVxK
    cases s.wait with
    | idle => exact ⟨_, rfl⟩
    | keyCaptured k => exact ⟨_, rfl⟩
  | _ => exact ⟨_, rfl⟩

/-- A Step of a halted core reports the latched kind (R33, R220). -/
theorem step_of_fault {s : State} {k : Fault} (h : s.fault = some k) : step s = .fault k := by
  simp [step, runStep, h]

/-- The three things a Step of a core with no fault latched can do: the fetch faults, or the word is illegal, or an
instruction is executed with PC advanced (R31, R66, R223). -/
theorem step_of_running {s : State} (hf : s.fault = none) :
    (4094 < s.pc.toNat ∧ step s = .next (s.raise .memoryOutOfRange)) ∨
    (s.pc.toNat ≤ 4094 ∧ (∃ e, decodeWord (s.wordAt s.pc.toNat) = .error e) ∧
      step s = .next (s.advance.raise .illegalInstruction)) ∨
    (s.pc.toNat ≤ 4094 ∧ ∃ i, decodeWord (s.wordAt s.pc.toNat) = .ok i ∧ step s = exec i s.advance) := by
  by_cases hp : s.pc.toNat ≤ 4094
  · have hs : step s = runWord exec (s.wordAt s.pc.toNat) s := runStep_of_fetch exec s hf hp
    cases hd : decodeWord (s.wordAt s.pc.toNat) with
    | error e => exact .inr (.inl ⟨hp, ⟨e, rfl⟩, hs.trans (runWord_of_error exec _ e s hd)⟩)
    | ok i => exact .inr (.inr ⟨hp, i, rfl, hs.trans (runWord_of_ok exec _ i s hd)⟩)
  · have hp : 4094 < s.pc.toNat := by omega
    exact .inl ⟨hp, runStep_of_bad_pc exec s hf hp⟩

/-- The ways a Step reaches a next state: the fetch faults, or the word is illegal, or an instruction is executed. -/
theorem step_cases {s t : State} (h : step s = .next t) :
    t = s.raise .memoryOutOfRange ∨
    (s.pc.toNat ≤ 4094 ∧ (∃ e, decodeWord (s.wordAt s.pc.toNat) = .error e) ∧
      t = s.advance.raise .illegalInstruction) ∨
    (s.pc.toNat ≤ 4094 ∧ ∃ i, decodeWord (s.wordAt s.pc.toNat) = .ok i ∧ exec i s.advance = .next t) := by
  cases hf : s.fault with
  | some k => rw [step_of_fault hf] at h; cases h
  | none =>
    obtain ⟨-, hs⟩ | ⟨hp, he, hs⟩ | ⟨hp, i, hi, hs⟩ := step_of_running hf
    · exact .inl (Host.Outcome.next.inj (h.symm.trans hs))
    · exact .inr (.inl ⟨hp, he, Host.Outcome.next.inj (h.symm.trans hs)⟩)
    · exact .inr (.inr ⟨hp, i, hi, hs.symm.trans h⟩)

/-- What every Step keeps, the event Step keeps: of a halted core it changes nothing (R220). -/
theorem State.stepEvent_induction {P : State → Prop} {s : State} (hs : P s)
    (hstep : ∀ t, step s = .next t → P t) : P s.stepEvent.1 := by
  unfold State.stepEvent
  split
  · next t h => exact hstep t h
  · exact hs
  · exact hs

/-- Settles O8: where the fetch is legal and the word decodes, the sequencer's equations give the execute phase. -/
theorem stepRunsTheDecodedInstruction : Obligations.StepRunsTheDecodedInstruction := by
  intro s i hf hp hd
  calc step s = runWord exec (s.wordAt s.pc.toNat) s := runStep_of_fetch exec s hf hp
    _ = exec i s.advance := runWord_of_ok exec _ i s hd

/-- Settles O12, by the three things a running core's Step can do; a halted core reports its fault. -/
theorem everyStepAnswersANextState : Obligations.EveryStepAnswersANextState := by
  have running : ∀ s : State, s.fault = none → ∃ t, step s = .next t := by
    intro s hf
    obtain ⟨-, hs⟩ | ⟨-, -, hs⟩ | ⟨-, i, -, hs⟩ := step_of_running hf
    · exact ⟨_, hs⟩
    · exact ⟨_, hs⟩
    · exact hs ▸ exec_answers i s.advance
  refine ⟨running, fun s r h => ?_⟩
  cases hf : s.fault with
  | some k => rw [step_of_fault hf] at h; cases h
  | none =>
    obtain ⟨t, ht⟩ := running s hf
    rw [ht] at h; cases h

/-! ### The invariant: canonical memory, PC and every stack entry below 0x1100 -/

/-- The invariant speaks of memory, PC and the stack alone. -/
theorem State.Inv.congr {s t : State} (h : s.Inv) (hmem : t.mem = s.mem) (hpc : t.pc = s.pc)
    (hstack : t.stack = s.stack) : t.Inv := by
  obtain ⟨hm, hp, hs⟩ := h
  refine ⟨?_, ?_, ?_⟩
  · unfold State.memCanonical; rwa [hmem]
  · rwa [hpc]
  · rwa [hstack]

theorem State.Inv.raise {s : State} (h : s.Inv) (k : Fault) : (s.raise k).Inv := h.congr rfl rfl rfl

theorem State.Inv.setPc {s : State} (h : s.Inv) {w : Word} (hw : w.toNat < 0x1100) : (s.setPc w).Inv :=
  ⟨h.mem, hw, h.pc.2⟩

theorem State.Inv.setMem {s : State} (h : s.Inv) {m : Memory} (hm : m.wf = true) : (s.setMem m).Inv :=
  ⟨hm, h.pc⟩

theorem State.Inv.advance {s : State} (h : s.Inv) (hp : s.pc.toNat ≤ 4096) : s.advance.Inv :=
  h.setPc (by rw [BitVec.toNat_add]; simp; omega)

theorem State.Inv.rewind {s : State} (h : s.Inv) (hp : 2 ≤ s.pc.toNat) : s.rewind.Inv :=
  h.setPc (by have := h.pc.1; bv_omega)

theorem State.Inv.skipIf {s : State} (h : s.Inv) (hp : s.pc.toNat ≤ 4096) (c : Bool) : (s.skipIf c).Inv := by
  cases c with
  | true => exact h.advance hp
  | false => exact h

theorem State.Inv.storeBytes {s t : State} (h : s.Inv) {base : Nat} {bs : List Byte}
    (ht : s.storeBytes base bs = .ok t) : t.Inv := by
  have hwf := s.storeBytes_wf t base bs ht h.mem
  rw [State.storeBytes_eq] at ht
  split at ht
  · obtain rfl := Except.ok.inj ht
    exact h.setMem hwf
  · cases ht

theorem State.Inv.push {s t : State} (h : s.Inv) {w : Word} (hw : w.toNat < 0x1100) (ht : s.push w = .ok t) :
    t.Inv := by
  by_cases hsp : s.sp.val < 16
  · rw [State.push_ok s w hsp] at ht
    obtain rfl := Except.ok.inj ht
    refine ⟨h.mem, h.pc.1, fun j hj => ?_⟩
    show (s.stack.set s.sp.val w hsp)[j].toNat < 0x1100
    rw [Vector.getElem_set]
    split
    · exact hw
    · exact h.pc.2 j hj
  · rw [State.push_full s w (by omega)] at ht
    cases ht

theorem State.Inv.popPc {s t : State} (h : s.Inv) (ht : s.popPc = .ok t) : t.Inv := by
  by_cases hsp : 0 < s.sp.val
  · rw [State.popPc_ok s hsp] at ht
    obtain rfl := Except.ok.inj ht
    exact ⟨h.mem, h.pc.2 _ _, h.pc.2⟩
  · rw [State.popPc_empty s (by omega)] at ht
    cases ht

/-- A 12-bit target is below 0x1000 (40_control_flow.md R123). -/
theorem addr16_toNat (nnn : Addr12) : (addr16 nnn).toNat = nnn.toNat := by
  simp [addr16]; omega

/-- JP V0 reaches 0xFFF + 0xFF at most (R124). -/
theorem State.offsetTarget_lt (s : State) (nnn : Addr12) : (s.offsetTarget nnn).toNat < 0x1100 := by
  have hn := nnn.isLt
  have hv := (s.getV 0#4).isLt
  simp only [State.offsetTarget, State.getV16, BitVec.toNat_add, addr16_toNat, BitVec.toNat_setWidth]
  omega

/-- The execute phase keeps the invariant when PC is where an advance from a legal fetch leaves it: a taken skip is
the one further advance, and the return address CALL pushes is that PC. -/
theorem exec_keeps_inv {i : Instr} {s t : State} (hs : s.Inv) (hlow : 2 ≤ s.pc.toNat) (hhigh : s.pc.toNat ≤ 4096)
    (h : exec i s = .next t) : t.Inv := by
  cases i with
  | seVxKk x kk | sneVxKk x kk | seVxVy x y | sneVxVy x y | skp x | sknp x =>
    obtain rfl := Host.Outcome.next.inj h
    exact hs.skipIf hhigh _
  | jp nnn =>
    obtain rfl := Host.Outcome.next.inj h
    exact hs.setPc (by rw [addr16_toNat]; omega)
  | jpV0 nnn =>
    obtain rfl := Host.Outcome.next.inj h
    exact hs.setPc (s.offsetTarget_lt nnn)
  | call nnn =>
    refine State.orRaise_induction h hs.raise fun u hu => ?_
    obtain ⟨a, ha, rfl⟩ := Except.map_eq_ok hu
    exact (hs.push hs.pc.1 ha).setPc (by rw [addr16_toNat]; omega)
  | ret => exact State.orRaise_induction h hs.raise fun u hu => hs.popPc hu
  | drw x y n =>
    refine State.orRaise_induction h hs.raise fun u hu => ?_
    obtain ⟨bytes, -, rfl⟩ := Except.map_eq_ok hu
    exact hs.congr rfl rfl rfl
  | ldVxMem x =>
    refine State.orRaise_induction h hs.raise fun u hu => ?_
    obtain ⟨bytes, -, rfl⟩ := Except.map_eq_ok hu
    exact hs.congr (by simp) (by simp) (by simp)
  | ldBVx x | ldMemVx x => exact State.orRaise_induction h hs.raise fun u hu => hs.storeBytes hu
  | ldVxK x =>
    obtain ⟨-, k, -, rfl⟩ | ⟨-, rfl⟩ | ⟨k, -, -, rfl⟩ := (execLdVxK_eq_next s t x).1 h
    · exact State.Inv.rewind (hs.congr rfl rfl rfl) hlow
    · exact hs.rewind hlow
    · exact hs.congr rfl rfl rfl
  | _ =>
    obtain rfl := Host.Outcome.next.inj h
    exact hs.congr rfl rfl rfl

/-- Every Step keeps the invariant (10_state.md R46): PC at most 4094 before the advance is at least 2 and at most
4096 after it. -/
theorem step_keeps_inv {s t : State} (hs : s.Inv) (h : step s = .next t) : t.Inv := by
  obtain rfl | ⟨hp, -, rfl⟩ | ⟨hp, i, -, hx⟩ := step_cases h
  · exact hs.raise _
  · exact (hs.advance (by omega)).raise _
  · have hpc : s.advance.pc.toNat = s.pc.toNat + 2 := by
      rw [State.advance_pc, BitVec.toNat_add]; simp; omega
    exact exec_keeps_inv (hs.advance (by omega)) (by omega) (by omega) hx

/-- After Reset PC is 0x200 and every stack entry 0 (R42). -/
theorem State.reset_pcBounded : State.reset.pcBounded := by
  refine ⟨by decide, fun j hj => ?_⟩
  show (Vector.replicate 16 0#16)[j].toNat < 0x1100
  simp

/-- Settles O53: the memory lists nothing, and PC and the stack hold their values after Reset. -/
theorem invariantHoldsAtReset : Obligations.InvariantHoldsAtReset :=
  ⟨State.reset_mem_wf, State.reset_pcBounded⟩

/-- Reset leaves a canonical memory for every FONT and MEM_FILL, and PC and the stack as `State.reset` has them
(R42, R69). -/
theorem State.resetWith_inv (s : State) (font : Vector Byte 80) (fill : Byte) : (s.resetWith font fill).Inv :=
  (State.Inv.setMem invariantHoldsAtReset (Memory.wf_initial font fill)).congr rfl rfl rfl

/-- Settles O54, by the ways a Step reaches a next state and the execute phase instruction by instruction. -/
theorem stepKeepsTheInvariant : Obligations.StepKeepsTheInvariant :=
  fun _ _ hs h => step_keeps_inv hs h

/-- A program that fits keeps the memory canonical (70_reset_and_hazards.md R262). -/
theorem applyEvent_loadProgram_keeps_inv {s : State} (hs : s.Inv) (image : List Byte) :
    (applyEvent s (.loadProgram image)).Inv := by
  simp only [applyEvent, State.loadProgram]
  by_cases hl : image.length ≤ Config.maxImage
  · rw [if_pos hl]
    have hfit : Config.programBase + image.length ≤ 4096 := by
      simp only [Config.programBase, Config.maxImage] at hl ⊢; omega
    exact hs.setMem (Memory.wf_writeAll _ _ _ (.inr hfit) hs.mem)
  · rw [if_neg hl]
    exact hs

theorem State.Inv.tick {s : State} (h : s.Inv) : s.tick.Inv := by
  unfold State.tick
  split
  · exact h
  · exact h.congr rfl rfl rfl

/-- Settles O55: Reset and LoadProgram leave a canonical memory, a Step keeps the invariant, and the other events
touch neither memory, PC nor the stack. -/
theorem everyEventKeepsTheInvariant : Obligations.EveryEventKeepsTheInvariant := by
  intro s e hs
  cases e with
  | reset font fill => exact s.resetWith_inv font fill
  | loadProgram image => exact applyEvent_loadProgram_keeps_inv hs image
  | step => exact State.stepEvent_induction hs fun _ => step_keeps_inv hs
  | tick => exact hs.tick
  | setKey k down => exact hs.congr rfl rfl rfl
  | clearDirty => exact hs.congr rfl rfl rfl

end Sys2Proof.Machine
end

section
/-! PROOFS. What each instruction may write (10_state.md R43): one frame rule per state operation, one table of the
writes, and the frame of every instruction.  The rules about VF (R21), the special registers (R43) and the key wait
(R46) follow from it. -/

namespace Sys2Proof.Machine

/-! ### Frame rules: a write of what the frame allows to change keeps the frame -/

section
variable {touch : Touch} {s t : State}

theorem Frame.refl (touch : Touch) (s : State) : Frame touch s s where
  v _ _ := rfl
  i _ := rfl
  pc _ := rfl
  sp _ := rfl
  stack _ _ _ := rfl
  dt _ := rfl
  st _ := rfl
  disp _ _ _ := rfl
  dirty _ := rfl
  wait _ := rfl
  fault _ := rfl
  keys _ _ := rfl
  mem _ _ := rfl
  draws _ := rfl

theorem Frame.setV (h : Frame touch s t) {x : Reg} (b : Byte) (hx : touch.v x = true) :
    Frame touch s (t.setV x b) :=
  { h with
    v := fun r hr => by
      have hne : r ≠ x := by rintro rfl; simp [hx] at hr
      rw [State.getV_setV_of_ne _ _ _ _ hne, h.v r hr] }

theorem Frame.setI (h : Frame touch s t) (w : Word) (hi : touch.i = true) : Frame touch s (t.setI w) :=
  { h with i := by simp [hi] }

theorem Frame.setPc (h : Frame touch s t) (w : Word) (hp : touch.pc = true) : Frame touch s (t.setPc w) :=
  { h with pc := by simp [hp] }

theorem Frame.setDt (h : Frame touch s t) (b : Byte) (hd : touch.dt = true) : Frame touch s (t.setDt b) :=
  { h with dt := by simp [hd] }

theorem Frame.setSt (h : Frame touch s t) (b : Byte) (hs : touch.st = true) : Frame touch s (t.setSt b) :=
  { h with st := by simp [hs] }

theorem Frame.setDisp (h : Frame touch s t) (d : Display) (hd : touch.disp = true) : Frame touch s (t.setDisp d) :=
  { h with disp := by simp [hd] }

theorem Frame.setDirty (h : Frame touch s t) (b : Bool) (hd : touch.dirty = true) : Frame touch s (t.setDirty b) :=
  { h with dirty := by simp [hd] }

theorem Frame.setWait (h : Frame touch s t) (w : KeyWait) (hw : touch.wait = true) : Frame touch s (t.setWait w) :=
  { h with wait := by simp [hw] }

theorem Frame.setMem (h : Frame touch s t) (m : Memory) (hm : ∀ a, touch.mem a = true) :
    Frame touch s (t.setMem m) :=
  { h with mem := by simp [hm] }

theorem Frame.countDraw (h : Frame touch s t) (hd : touch.draws = true) : Frame touch s t.countDraw :=
  { h with draws := by simp [hd] }

theorem Frame.raise (h : Frame touch s t) (hf : touch.fault = true) (k : Fault) : Frame touch s (t.raise k) :=
  { h with fault := by simp [hf] }

theorem Frame.setKey (h : Frame touch s t) (k : Nibble) (b : Bool) (hk : touch.keys = true) :
    Frame touch s (t.setKey k b) :=
  { h with keys := by simp [hk] }

theorem Frame.skipIf (h : Frame touch s t) (c : Bool) (hp : touch.pc = true) : Frame touch s (t.skipIf c) := by
  cases c with
  | true => exact h.setPc _ hp
  | false => exact h

theorem Frame.setRegsFrom (h : Frame touch s t) {r : Nat} {bs : List Byte}
    (hv : ∀ j, r ≤ j → j < r + bs.length → touch.v (BitVec.ofNat 4 j) = true) :
    Frame touch s (t.setRegsFrom r bs) := by
  induction bs generalizing t r with
  | nil => exact h
  | cons b bs ih =>
    simp only [List.length_cons] at hv
    exact ih (h.setV b (hv r (by omega) (by omega))) fun j hj hlt => hv j (by omega) (by omega)

theorem Frame.storeBytes (h : Frame touch s t) {u : State} {base : Nat} {bs : List Byte}
    (hu : t.storeBytes base bs = .ok u) (hm : ∀ a, touch.mem a = true) : Frame touch s u := by
  rw [State.storeBytes_eq] at hu
  split at hu
  · obtain rfl := Except.ok.inj hu
    exact h.setMem _ hm
  · cases hu

theorem Frame.push (h : Frame touch s t) {u : State} {w : Word} (hu : t.push w = .ok u) (hs : touch.sp = true)
    (hk : ∀ j, touch.stack j = true) : Frame touch s u := by
  by_cases hsp : t.sp.val < 16
  · rw [State.push_ok t w hsp] at hu
    obtain rfl := Except.ok.inj hu
    exact { h with sp := by simp [hs], stack := by simp [hk] }
  · rw [State.push_full t w (by omega)] at hu
    cases hu

theorem Frame.popPc (h : Frame touch s t) {u : State} (hu : t.popPc = .ok u) (hs : touch.sp = true)
    (hp : touch.pc = true) : Frame touch s u := by
  by_cases hsp : 0 < t.sp.val
  · rw [State.popPc_ok t hsp] at hu
    obtain rfl := Except.ok.inj hu
    exact { h with sp := by simp [hs], pc := by simp [hp] }
  · rw [State.popPc_empty t (by omega)] at hu
    cases hu

/-- A frame that leaves every stack entry alone leaves the stack alone. -/
theorem Frame.stack_eq (h : Frame touch s t) (hk : ∀ j, touch.stack j = false) : t.stack = s.stack :=
  Vector.ext fun j hj => h.stack j hj (hk j)

/-- A frame that leaves the display alone pixel by pixel leaves the bitmap alone. -/
theorem Frame.disp_eq (h : Frame touch s t) (hd : touch.disp = false) : t.disp = s.disp :=
  Display.ext_pixel _ _ (h.disp hd)

/-- A frame that leaves every key alone leaves the keyboard alone. -/
theorem Frame.keys_eq (h : Frame touch s t) (hk : touch.keys = false) : t.keys = s.keys := by
  refine Vector.ext fun j hj => ?_
  have hkey := h.keys hk (BitVec.ofNat 4 j)
  simpa [State.keyDown, Nat.mod_eq_of_lt hj] using hkey

end

/-! ### What each instruction may write -/

/-- What the execute phase of an instruction may change, in the order of R43's table: a fault changes the latch. -/
def writes : Instr → Touch
  | .ldVxKk x _ | .addVxKk x _ | .ldVxVy x _ | .orVxVy x _ | .andVxVy x _ | .xorVxVy x _ | .ldVxDt x =>
    { v := fun r => r == x }
  | .rnd x _ => { v := fun r => r == x, draws := true }
  | .addVxVy x _ | .subVxVy x _ | .shrVx x _ | .subnVxVy x _ | .shlVx x _ => { v := fun r => r == x || r == regVF }
  | .ldVxMem x => { v := fun r => decide (r.toNat ≤ x.toNat), fault := true }
  | .ldI _ | .addIVx _ | .ldFVx _ => { i := true }
  | .jp _ | .jpV0 _ | .seVxKk _ _ | .sneVxKk _ _ | .seVxVy _ _ | .sneVxVy _ _ | .skp _ | .sknp _ => { pc := true }
  | .call _ => { pc := true, sp := true, stack := fun _ => true, fault := true }
  | .ret => { pc := true, sp := true, fault := true }
  | .ldDtVx _ => { dt := true }
  | .ldStVx _ => { st := true }
  | .cls => { disp := true, dirty := true }
  | .drw _ _ _ => { v := fun r => r == regVF, disp := true, dirty := true, fault := true }
  | .ldVxK x => { v := fun r => r == x, pc := true, wait := true }
  | .ldBVx _ | .ldMemVx _ => { fault := true, mem := fun _ => true }
  | .sys _ => {}

/-- A load answers as many bytes as it was asked for (20_memory.md R62). -/
theorem State.loadBytes_length {s : State} {base count : Nat} {bytes : List Byte}
    (h : s.loadBytes base count = .ok bytes) : bytes.length = count := by
  rw [State.loadBytes_eq] at h
  split at h
  · obtain rfl := Except.ok.inj h
    simp
  · cases h

/-- Every instruction changes at most what `writes` gives it. -/
theorem exec_frame {i : Instr} {s t : State} (h : exec i s = .next t) : Frame (writes i) s t := by
  have h0 := Frame.refl (writes i) s
  cases i with
  | ldVxKk x _ | addVxKk x _ | ldVxVy x _ | orVxVy x _ | andVxVy x _ | xorVxVy x _ | ldVxDt x =>
    obtain rfl := Host.Outcome.next.inj h
    exact h0.setV _ (by simp [writes])
  | rnd x kk =>
    obtain rfl := Host.Outcome.next.inj h
    exact (h0.setV _ (by simp [writes])).countDraw rfl
  | addVxVy x _ | subVxVy x _ | shrVx x _ | subnVxVy x _ | shlVx x _ =>
    obtain rfl := Host.Outcome.next.inj h
    exact (h0.setV _ (by simp [writes])).setV _ (by simp [writes])
  | ldI _ | addIVx _ | ldFVx _ =>
    obtain rfl := Host.Outcome.next.inj h
    exact h0.setI _ rfl
  | jp _ | jpV0 _ =>
    obtain rfl := Host.Outcome.next.inj h
    exact h0.setPc _ rfl
  | seVxKk _ _ | sneVxKk _ _ | seVxVy _ _ | sneVxVy _ _ | skp _ | sknp _ =>
    obtain rfl := Host.Outcome.next.inj h
    exact h0.skipIf _ rfl
  | ldDtVx x =>
    obtain rfl := Host.Outcome.next.inj h
    exact h0.setDt _ rfl
  | ldStVx x =>
    obtain rfl := Host.Outcome.next.inj h
    exact h0.setSt _ rfl
  | cls =>
    obtain rfl := Host.Outcome.next.inj h
    exact (h0.setDisp _ rfl).setDirty _ rfl
  | sys _ =>
    obtain rfl := Host.Outcome.next.inj h
    exact h0
  | ldVxK x =>
    obtain ⟨-, k, -, rfl⟩ | ⟨-, rfl⟩ | ⟨k, -, -, rfl⟩ := (execLdVxK_eq_next s t x).1 h
    · exact (h0.setWait _ rfl).setPc _ rfl
    · exact h0.setPc _ rfl
    · exact (h0.setV _ (by simp [writes])).setWait _ rfl
  | call nnn =>
    refine State.orRaise_induction h (h0.raise rfl) fun u hu => ?_
    obtain ⟨a, ha, rfl⟩ := Except.map_eq_ok hu
    exact (h0.push ha rfl fun _ => rfl).setPc _ rfl
  | ret => exact State.orRaise_induction h (h0.raise rfl) fun u hu => h0.popPc hu rfl rfl
  | drw x y n =>
    refine State.orRaise_induction h (h0.raise rfl) fun u hu => ?_
    obtain ⟨bytes, -, rfl⟩ := Except.map_eq_ok hu
    exact ((h0.setDisp _ rfl).setV _ rfl).setDirty _ rfl
  | ldBVx _ | ldMemVx _ =>
    exact State.orRaise_induction h (h0.raise rfl) fun u hu => h0.storeBytes hu fun _ => rfl
  | ldVxMem x =>
    refine State.orRaise_induction h (h0.raise rfl) fun u hu => ?_
    obtain ⟨bytes, hb, rfl⟩ := Except.map_eq_ok hu
    have hlen := State.loadBytes_length hb
    exact h0.setRegsFrom fun j _ hj => by simp [writes]; omega

/-! ### The tables of 10_state.md R21 and R43, read from `writes` -/

/-- An instruction that may not write `VF` by R21 has no write of it. -/
theorem writes_regVF {i : Instr} (h : mayWriteVF i = false) : (writes i).v regVF = false := by
  cases i with
  | addVxVy _ _ | subVxVy _ _ | shrVx _ _ | subnVxVy _ _ | shlVx _ _ | drw _ _ _ => cases h
  | ldVxKk x _ | addVxKk x _ | ldVxVy x _ | orVxVy x _ | andVxVy x _ | xorVxVy x _ | rnd x _ | ldVxDt x | ldVxK x =>
    rw [← h]; exact BEq.comm
  | ldVxMem x =>
    have hx : x ≠ 15#4 := by simpa [mayWriteVF] using h
    simp only [writes, decide_eq_false_iff_not]
    bv_omega
  | _ => rfl

/-- Settles O30: `writes` has no write of VF for the instruction, so its frame keeps it. -/
theorem othersLeaveTheFlagAlone : Obligations.OthersLeaveTheFlagAlone :=
  fun _ _ _ h hvf => (exec_frame h).v regVF (writes_regVF hvf)

/-- Only CALL has a write of the stack. -/
theorem writes_stack {i : Instr} (h : ¬ ∃ nnn, i = .call nnn) (j : Nat) : (writes i).stack j = false := by
  cases i with
  | call nnn => exact absurd ⟨nnn, rfl⟩ h
  | _ => rfl

/-- Only LD B and LD [I] have a write of memory. -/
theorem writes_mem {i : Instr} {a : Nat} (h : (writes i).mem a = true) :
    (∃ x, i = .ldBVx x) ∨ ∃ x, i = .ldMemVx x := by
  cases i with
  | ldBVx x => exact .inl ⟨x, rfl⟩
  | ldMemVx x => exact .inr ⟨x, rfl⟩
  | _ => cases h

/-- No instruction has a write of the keys (R34). -/
theorem writes_keys (i : Instr) : (writes i).keys = false := by cases i <;> rfl

/-- Only the key wait has a write of the wait register (R30). -/
theorem writes_wait {i : Instr} (h : (writes i).wait = true) : ∃ x, i = .ldVxK x := by
  cases i with
  | ldVxK x => exact ⟨x, rfl⟩
  | _ => cases h

/-- The rows of R43's table for the registers that are one field of the state. -/
theorem writes_registers (i : Instr) :
    ((writes i).i = true → (∃ nnn, i = .ldI nnn) ∨ (∃ x, i = .addIVx x) ∨ ∃ x, i = .ldFVx x) ∧
    ((writes i).sp = true → (∃ nnn, i = .call nnn) ∨ i = .ret) ∧
    ((writes i).dt = true → ∃ x, i = .ldDtVx x) ∧
    ((writes i).st = true → ∃ x, i = .ldStVx x) ∧
    ((writes i).disp = true → i = .cls ∨ ∃ x y n, i = .drw x y n) ∧
    ((writes i).dirty = true → i = .cls ∨ ∃ x y n, i = .drw x y n) := by
  cases i <;> simp [writes]

/-- Settles O58: a changed register is one that `writes` has for the instruction. -/
theorem onlyListedInstructionsWrite : Obligations.OnlyListedInstructionsWrite := by
  intro i s t h
  have hf := exec_frame h
  obtain ⟨hi, hsp, hdt, hst, hdisp, hdirty⟩ := writes_registers i
  exact ⟨
    fun hne => hi (eq_true_of_ne_false (mt hf.i hne)),
    fun hne => hsp (eq_true_of_ne_false (mt hf.sp hne)),
    fun hne => not_not.1 fun hcall => hne (hf.stack_eq (writes_stack hcall)),
    fun hne => hdt (eq_true_of_ne_false (mt hf.dt hne)),
    fun hne => hst (eq_true_of_ne_false (mt hf.st hne)),
    fun hne => hdisp (eq_true_of_ne_false (mt hf.disp_eq hne)),
    fun hne => hdirty (eq_true_of_ne_false (mt hf.dirty hne)),
    fun hne => writes_wait (eq_true_of_ne_false (mt hf.wait hne)),
    hf.keys_eq (writes_keys i),
    fun a hne => writes_mem (eq_true_of_ne_false (mt (hf.mem a) hne))⟩

/-! ### The wait invariant (10_state.md R46) -/

/-- The wait invariant speaks of the wait register, PC and memory alone. -/
theorem State.waitAtItsInstruction_congr {s t : State} (h : s.waitAtItsInstruction) (hwait : t.wait = s.wait)
    (hpc : t.pc = s.pc) (hmem : t.mem = s.mem) : t.waitAtItsInstruction := by
  unfold State.waitAtItsInstruction State.wordAt
  rwa [hwait, hpc, hmem]

/-- With no key captured there is nothing to hold. -/
theorem State.waitAtItsInstruction_of_idle {s : State} (h : s.wait = .idle) : s.waitAtItsInstruction := by
  intro k hk
  rw [h] at hk
  cases hk

/-- A Step's LD Vx, K either is at its own address again, by the rewind, or has left the wait (44_keyboard_timers.md
R204, C4). -/
theorem execLdVxK_of_advance {s t : State} {x : Reg} (h : execLdVxK x s.advance = .next t) :
    t.wait = .idle ∨ (t.pc = s.pc ∧ t.mem = s.mem) := by
  have hpc : s.pc + 2#16 - 2#16 = s.pc := by bv_omega
  obtain ⟨-, k, -, rfl⟩ | ⟨-, rfl⟩ | ⟨k, -, -, rfl⟩ := (execLdVxK_eq_next s.advance t x).1 h
  · exact .inr ⟨hpc, rfl⟩
  · exact .inr ⟨hpc, rfl⟩
  · exact .inl rfl

/-- Every Step keeps the wait invariant: an LD Vx, K is at its own address again or done, and any other word leaves
the wait register, in which by the invariant no key is captured. -/
theorem step_keeps_waitAtItsInstruction {s t : State} (hs : s.waitAtItsInstruction) (h : step s = .next t) :
    t.waitAtItsInstruction := by
  obtain rfl | ⟨-, ⟨e, he⟩, rfl⟩ | ⟨hp, i, hi, hx⟩ := step_cases h
  · exact State.waitAtItsInstruction_congr hs rfl rfl rfl
  · intro k hk
    obtain ⟨-, x, hx⟩ := hs k hk
    rw [he] at hx
    cases hx
  · by_cases hK : ∃ x, i = .ldVxK x
    · obtain ⟨x, rfl⟩ := hK
      obtain hidle | ⟨hpc, hmem⟩ := execLdVxK_of_advance hx
      · exact State.waitAtItsInstruction_of_idle hidle
      · intro k _
        rw [State.wordAt, hpc, hmem]
        exact ⟨hp, x, hi⟩
    · have hwait : t.wait = s.wait := (exec_frame hx).wait (eq_false_of_ne_true (mt writes_wait hK))
      intro k hk
      obtain ⟨-, x, hx⟩ := hs k (hwait ▸ hk)
      rw [hi] at hx
      exact absurd ⟨x, Except.ok.inj hx⟩ hK

theorem State.tick_keeps_waitAtItsInstruction {s : State} (hs : s.waitAtItsInstruction) :
    s.tick.waitAtItsInstruction := by
  unfold State.tick
  split
  · exact hs
  · exact State.waitAtItsInstruction_congr hs rfl rfl rfl

/-- Settles O56: Reset leaves the wait idle, a Step keeps the invariant, and Tick, SetKey and ClearDirty touch neither
the wait register, PC nor memory. -/
theorem capturedKeyStaysAtItsInstruction : Obligations.CapturedKeyStaysAtItsInstruction := by
  refine ⟨fun s t hs h => step_keeps_waitAtItsInstruction hs h, fun s e hload hs => ?_⟩
  cases e with
  | reset font fill => exact State.waitAtItsInstruction_of_idle rfl
  | loadProgram image => exact absurd rfl (hload image)
  | step => exact State.stepEvent_induction hs fun _ => step_keeps_waitAtItsInstruction hs
  | tick => exact State.tick_keeps_waitAtItsInstruction hs
  | setKey k down => exact State.waitAtItsInstruction_congr hs rfl rfl rfl
  | clearDirty => exact State.waitAtItsInstruction_congr hs rfl rfl rfl

end Sys2Proof.Machine
end

section
/-! PROOFS. The host's events Tick, SetKey, ClearDirty and Reset (10_state.md R37, R38, R39, R42). -/

namespace Sys2Proof.Machine

/-- A timer's count is the natural one, which stops at 0 (R37). -/
theorem countDown_toNat (b : Byte) : (countDown b).toNat = b.toNat - 1 := by
  unfold countDown
  split
  · next h => subst h; rfl
  · next h => bv_omega

/-- Settles O46: with no fault latched a Tick is the two timer writes. -/
theorem tickCountsDownToZero : Obligations.TickCountsDownToZero := by
  intro s hf
  have htick : applyEvent s .tick = (s.setDt (countDown s.dt)).setSt (countDown s.st) := by
    simp [applyEvent, State.tick, hf]
  rw [htick]
  exact ⟨countDown_toNat s.dt, countDown_toNat s.st, ((Frame.refl _ s).setDt _ rfl).setSt _ rfl⟩

/-- Settles O47: each event is one write. -/
theorem setKeyAndClearDirtyWriteOneFlag : Obligations.SetKeyAndClearDirtyWriteOneFlag := by
  refine ⟨fun s k b => ?_, fun s => ⟨rfl, (Frame.refl _ s).setDirty false rfl⟩⟩
  have hread : ∀ j, (applyEvent s (.setKey k b)).keyDown j = if j = k then b else s.keyDown j :=
    fun j => s.keyDown_setKey k j b
  exact ⟨by simp [hread], fun j hj => by simp [hread, hj], (Frame.refl _ s).setKey k b rfl⟩

/-- The font region holds FONT (20_memory.md R69). -/
theorem initialByte_font (font : Vector Byte 80) (fill : Byte) (j : Nat) (h : j < 80) :
    initialByte font fill (0x050 + j) = font[j] := by
  simp [initialByte, h]

/-- Every byte outside the font region holds MEM_FILL (10_state.md R42). -/
theorem initialByte_fill (font : Vector Byte 80) (fill : Byte) (a : Nat) (h : a < 0x050 ∨ 0x09F < a) :
    initialByte font fill a = fill := by
  unfold initialByte
  split
  · next hbase =>
    simp only [Config.fontBase] at hbase ⊢
    exact List.getD_eq_default _ _ (by rw [Vector.length_toList, Config.fontSize]; omega)
  · rfl

/-- Reset gives memory its initial contents (R42). -/
theorem State.resetWith_mem (s : State) (font : Vector Byte 80) (fill : Byte) :
    (s.resetWith font fill).mem = Memory.initial font fill := by
  rw [State.resetWith]

/-- Settles O49: every field but memory has its value in `State.reset`, and memory is `Memory.initial`. -/
theorem resetLeavesTheInitialState : Obligations.ResetLeavesTheInitialState := by
  intro s font fill
  have hread : ∀ a, a < 4096 → (applyEvent s (.reset font fill)).mem.read a = initialByte font fill a :=
    fun a ha => by rw [applyEvent, State.resetWith_mem, Memory.read_initial font fill a ha]
  refine ⟨rfl, rfl, fun r => ?_, rfl, fun j h => ?_, rfl, rfl, rfl, Display.pixel_blank, rfl, rfl, rfl, fun k => ?_,
    fun j h => ?_, fun a ha hout => ?_⟩
  · show (Vector.replicate 16 0#8)[r.toNat] = 0#8
    simp
  · show (Vector.replicate 16 0#16)[j] = 0#16
    simp
  · show (Vector.replicate 16 false)[k.toNat] = false
    simp
  · rw [hread _ (by omega), initialByte_font font fill j h]
  · rw [hread a ha, initialByte_fill font fill a hout]

end Sys2Proof.Machine
end

section
/-! PROOFS. What no instruction reads: DIRTY, the sound timer and the stack entries from SP up (10_state.md R24, R26,
R29).  Two states that differ in these alone are taken to two states that differ in these alone: one rule per state
operation, then the instructions. -/

namespace Sys2Proof.Machine

/-- A choice of what two runs may differ in: DIRTY, the sound timer, the stack entries from `sp` up. -/
def unread (dirty st stale : Bool) (sp : Fin 17) : Touch :=
  { dirty := dirty, st := st, stack := fun j => stale && decide (sp.val ≤ j) }

/-- The entries in use are never among what two runs may differ in (10_state.md R24). -/
theorem unread_stack_eq_false {dirty st stale : Bool} {sp : Fin 17} {j : Nat} :
    (unread dirty st stale sp).stack j = false ↔ stale = false ∨ j < sp.val := by
  cases stale <;> simp [unread]

/-- The two states differ at most in what is chosen of DIRTY, the sound timer and the stale stack entries. -/
abbrev Alike (dirty st stale : Bool) (s s' : State) : Prop := Frame (unread dirty st stale s.sp) s s'

/-- Both effects are whole and leave alike states, or both are the same fault. -/
def AlikeEffects (dirty st stale : Bool) : Except Fault State → Except Fault State → Prop
  | .ok t, .ok u => Alike dirty st stale t u
  | .error k, .error k' => k = k'
  | .ok _, .error _ | .error _, .ok _ => False

/-! ### The same write on both sides of a frame -/

section
variable {touch : Touch} {s t : State}

theorem Frame.setV_both (h : Frame touch s t) (x : Reg) (b : Byte) : Frame touch (s.setV x b) (t.setV x b) :=
  { h with v := fun r hr => by rw [State.getV_setV, State.getV_setV, h.v r hr] }

theorem Frame.setI_both (h : Frame touch s t) (w : Word) : Frame touch (s.setI w) (t.setI w) :=
  { h with i := fun _ => rfl }

theorem Frame.setPc_both (h : Frame touch s t) (w : Word) : Frame touch (s.setPc w) (t.setPc w) :=
  { h with pc := fun _ => rfl }

theorem Frame.setDt_both (h : Frame touch s t) (b : Byte) : Frame touch (s.setDt b) (t.setDt b) :=
  { h with dt := fun _ => rfl }

theorem Frame.setSt_both (h : Frame touch s t) (b : Byte) : Frame touch (s.setSt b) (t.setSt b) :=
  { h with st := fun _ => rfl }

theorem Frame.setDirty_both (h : Frame touch s t) (b : Bool) : Frame touch (s.setDirty b) (t.setDirty b) :=
  { h with dirty := fun _ => rfl }

theorem Frame.setDisp_both (h : Frame touch s t) (d : Display) : Frame touch (s.setDisp d) (t.setDisp d) :=
  { h with disp := fun _ _ _ => rfl }

theorem Frame.setWait_both (h : Frame touch s t) (w : KeyWait) : Frame touch (s.setWait w) (t.setWait w) :=
  { h with wait := fun _ => rfl }

theorem Frame.raise_both (h : Frame touch s t) (k : Fault) : Frame touch (s.raise k) (t.raise k) :=
  { h with fault := fun _ => rfl }

theorem Frame.countDraw_both (h : Frame touch s t) : Frame touch s.countDraw t.countDraw :=
  { h with draws := fun hd => congrArg (· + 1) (h.draws hd) }

theorem Frame.writeAll_both (h : Frame touch s t) (a : Nat) (bs : List Byte) :
    Frame touch (s.setMem (s.mem.writeAll a bs)) (t.setMem (t.mem.writeAll a bs)) :=
  { h with
    mem := fun q hq => by
      rw [State.setMem_mem, State.setMem_mem, Memory.read_writeAll, Memory.read_writeAll, h.mem q hq] }

end

/-! ### Alike states: what is read of them, and the operations that read -/

section
variable {dirty st stale : Bool} {s s' : State}

theorem Alike.getV (h : Alike dirty st stale s s') (x : Reg) : s'.getV x = s.getV x := h.v x rfl

theorem Alike.keyDown (h : Alike dirty st stale s s') (k : Nibble) : s'.keyDown k = s.keyDown k := h.keys rfl k

theorem Alike.lowestKeyDown (h : Alike dirty st stale s s') : s'.lowestKeyDown = s.lowestKeyDown :=
  congrArg (fun f => keyNumbers.find? f) (funext h.keyDown)

theorem Alike.base (h : Alike dirty st stale s s') : s'.base = s.base := congrArg BitVec.toNat (h.i rfl)

theorem Alike.regsUpTo (h : Alike dirty st stale s s') (x : Reg) : s'.regsUpTo x = s.regsUpTo x := by
  simp only [State.regsUpTo, h.getV]

theorem Alike.loadBytes (h : Alike dirty st stale s s') (base count : Nat) :
    s'.loadBytes base count = s.loadBytes base count := by
  have hread : s'.mem.read = s.mem.read := funext fun a => h.mem a rfl
  rw [State.loadBytes, State.loadBytes, hread]

theorem Alike.advance (h : Alike dirty st stale s s') : Alike dirty st stale s.advance s'.advance := by
  rw [State.advance, State.advance, h.pc rfl]
  exact h.setPc_both _

theorem Alike.rewind (h : Alike dirty st stale s s') : Alike dirty st stale s.rewind s'.rewind := by
  rw [State.rewind, State.rewind, h.pc rfl]
  exact h.setPc_both _

theorem Alike.skipIf (h : Alike dirty st stale s s') (c : Bool) :
    Alike dirty st stale (s.skipIf c) (s'.skipIf c) := by
  cases c with
  | true => exact h.advance
  | false => exact h

theorem Alike.setRegsFrom (h : Alike dirty st stale s s') (r : Nat) (bs : List Byte) :
    Alike dirty st stale (s.setRegsFrom r bs) (s'.setRegsFrom r bs) := by
  induction bs generalizing s s' r with
  | nil => exact h
  | cons b bs ih => exact ih (h.setV_both _ b) (r + 1)

/-- The drawn bitmap and the collision are the same, and DIRTY is set in both (43_display.md R192). -/
theorem Alike.drawSprite (h : Alike dirty st stale s s') (x y : Reg) (bytes : List Byte) :
    Alike dirty st stale (s.drawSprite x y bytes) (s'.drawSprite x y bytes) := by
  unfold State.drawSprite
  rw [h.getV x, h.getV y, h.disp_eq rfl]
  exact ((h.setDisp_both _).setV_both _ _).setDirty_both _

/-! ### Alike effects -/

theorem AlikeEffects.of_map {α : Type} {f f' : α → State} (hf : ∀ a, Alike dirty st stale (f a) (f' a))
    (r : Except Fault α) : AlikeEffects dirty st stale (r.map f) (r.map f') := by
  cases r with
  | ok a => exact hf a
  | error k => exact rfl

theorem Alike.storeBytes (h : Alike dirty st stale s s') (base : Nat) (bs : List Byte) :
    AlikeEffects dirty st stale (s.storeBytes base bs) (s'.storeBytes base bs) := by
  unfold State.storeBytes
  split
  · exact h.writeAll_both base bs
  · exact rfl

/-- CALL puts the return address over the first stale entry, which is in use afterwards (10_state.md R24). -/
theorem Alike.push_setPc (h : Alike dirty st stale s s') (w target : Word) :
    AlikeEffects dirty st stale ((s.push w).map fun t => t.setPc target) ((s'.push w).map fun t => t.setPc target) := by
  have hsp' : s'.sp = s.sp := h.sp rfl
  by_cases hsp : s.sp.val < 16
  · rw [State.push_ok s w hsp, State.push_ok s' w (hsp' ▸ hsp)]
    refine { h with pc := fun _ => rfl, sp := fun _ => by simp [hsp'], stack := fun j hj htouch => ?_ }
    simp only [State.setPc_stack, hsp', Vector.getElem_set]
    split
    · rfl
    · next hne =>
      refine h.stack j hj (unread_stack_eq_false.2 ?_)
      exact (unread_stack_eq_false.1 htouch).imp_right fun hlt : j < s.sp.val + 1 => by omega
  · rw [State.push_full s w (by omega), State.push_full s' w (by rw [hsp']; omega)]
    exact rfl

/-- RET reads the last entry in use, which is stale afterwards (R24). -/
theorem Alike.popPc (h : Alike dirty st stale s s') : AlikeEffects dirty st stale s.popPc s'.popPc := by
  have hsp' : s'.sp = s.sp := h.sp rfl
  by_cases hsp : 0 < s.sp.val
  · rw [State.popPc_ok s hsp, State.popPc_ok s' (hsp' ▸ hsp)]
    refine { h with sp := fun _ => by simp [hsp'], pc := fun _ => ?_, stack := fun j hj htouch => ?_ }
    · simp only [hsp']
      exact h.stack _ _ (unread_stack_eq_false.2 (.inr (by omega)))
    · refine h.stack j hj (unread_stack_eq_false.2 ?_)
      exact (unread_stack_eq_false.1 htouch).imp_right fun hlt : j < s.sp.val - 1 => by omega
  · rw [State.popPc_empty s (by omega), State.popPc_empty s' (by rw [hsp']; omega)]
    exact rfl

/-! ### Every instruction takes alike states to alike states -/

/-- Alike states with alike effects answer alike states, whole or with the same fault latched. -/
theorem Alike.orRaise (h : Alike dirty st stale s s') {r r' : Except Fault State}
    (hr : AlikeEffects dirty st stale r r') {t : State} (hx : s.orRaise r = .next t) :
    ∃ u, s'.orRaise r' = .next u ∧ Alike dirty st stale t u := by
  cases r <;> cases r'
  case ok.ok a a' =>
    obtain rfl := Host.Outcome.next.inj hx
    exact ⟨a', rfl, hr⟩
  case error.error k k' =>
    obtain rfl : k = k' := hr
    obtain rfl := Host.Outcome.next.inj hx
    exact ⟨s'.raise k, rfl, h.raise_both k⟩
  case ok.error => cases hr
  case error.ok => cases hr

/-- The key wait reads the wait register and the keys alone (44_keyboard_timers.md R204). -/
theorem Alike.keyWait (h : Alike dirty st stale s s') {t : State} {x : Reg} (hx : execLdVxK x s = .next t) :
    ∃ u, execLdVxK x s' = .next u ∧ Alike dirty st stale t u := by
  simp only [execLdVxK_eq_next, h.wait rfl, h.lowestKeyDown, h.keyDown]
  obtain ⟨hw, k, hk, rfl⟩ | ⟨hw, rfl⟩ | ⟨k, hw, hk, rfl⟩ := (execLdVxK_eq_next s t x).1 hx
  · exact ⟨_, .inl ⟨hw, k, hk, rfl⟩, Alike.rewind (h.setWait_both _)⟩
  · exact ⟨_, .inr (.inl ⟨hw, rfl⟩), h.rewind⟩
  · exact ⟨_, .inr (.inr ⟨k, hw, hk, rfl⟩), (h.setV_both _ _).setWait_both _⟩

/-- No instruction reads DIRTY, the sound timer or a stale stack entry: two states that differ in these alone are
taken to two states that differ in these alone. -/
theorem exec_alike {i : Instr} (h : Alike dirty st stale s s') {t : State} (hx : exec i s = .next t) :
    ∃ u, exec i s' = .next u ∧ Alike dirty st stale t u := by
  have hv := h.getV
  cases i with
  | ldVxKk x kk =>
    obtain rfl := Host.Outcome.next.inj hx
    exact ⟨_, rfl, h.setV_both x kk⟩
  | addVxKk x _ | ldVxVy x _ | orVxVy x _ | andVxVy x _ | xorVxVy x _ | ldVxDt x =>
    obtain rfl := Host.Outcome.next.inj hx
    refine ⟨_, rfl, ?_⟩
    simp only [hv, h.dt rfl]
    exact h.setV_both x _
  | rnd x kk =>
    obtain rfl := Host.Outcome.next.inj hx
    refine ⟨_, rfl, ?_⟩
    rw [h.draws rfl]
    exact (h.setV_both x _).countDraw_both
  | addVxVy x _ | subVxVy x _ | shrVx x _ | subnVxVy x _ | shlVx x _ =>
    obtain rfl := Host.Outcome.next.inj hx
    refine ⟨_, rfl, ?_⟩
    simp only [hv]
    exact (h.setV_both x _).setV_both regVF _
  | ldI _ =>
    obtain rfl := Host.Outcome.next.inj hx
    exact ⟨_, rfl, h.setI_both _⟩
  | addIVx _ | ldFVx _ =>
    obtain rfl := Host.Outcome.next.inj hx
    refine ⟨_, rfl, ?_⟩
    simp only [State.glyphAddr, State.getV16, hv, h.i rfl]
    exact h.setI_both _
  | jp _ =>
    obtain rfl := Host.Outcome.next.inj hx
    exact ⟨_, rfl, h.setPc_both _⟩
  | jpV0 _ =>
    obtain rfl := Host.Outcome.next.inj hx
    refine ⟨_, rfl, ?_⟩
    simp only [State.offsetTarget, State.getV16, hv]
    exact h.setPc_both _
  | seVxKk _ _ | sneVxKk _ _ | seVxVy _ _ | sneVxVy _ _ | skp _ | sknp _ =>
    obtain rfl := Host.Outcome.next.inj hx
    refine ⟨_, rfl, ?_⟩
    simp only [State.keyOperand, hv, h.keyDown]
    exact h.skipIf _
  | ldDtVx x =>
    obtain rfl := Host.Outcome.next.inj hx
    refine ⟨_, rfl, ?_⟩
    rw [hv]
    exact h.setDt_both _
  | ldStVx x =>
    obtain rfl := Host.Outcome.next.inj hx
    refine ⟨_, rfl, ?_⟩
    rw [hv]
    exact h.setSt_both _
  | cls =>
    obtain rfl := Host.Outcome.next.inj hx
    exact ⟨_, rfl, (h.setDisp_both _).setDirty_both _⟩
  | sys _ =>
    obtain rfl := Host.Outcome.next.inj hx
    exact ⟨_, rfl, h⟩
  | ldVxK x => exact h.keyWait hx
  | call nnn =>
    refine h.orRaise ?_ hx
    rw [h.pc rfl]
    exact h.push_setPc _ _
  | ret => exact h.orRaise h.popPc hx
  | drw x y n =>
    refine h.orRaise ?_ hx
    rw [h.base, h.loadBytes]
    exact AlikeEffects.of_map (h.drawSprite x y) _
  | ldVxMem x =>
    refine h.orRaise ?_ hx
    rw [h.base, h.loadBytes]
    exact AlikeEffects.of_map (h.setRegsFrom 0) _
  | ldBVx x =>
    refine h.orRaise ?_ hx
    rw [h.base, hv]
    exact h.storeBytes _ _
  | ldMemVx x =>
    refine h.orRaise ?_ hx
    rw [h.base, h.regsUpTo]
    exact h.storeBytes _ _

end

/-- Settles O59: `exec_alike` for two states that differ in DIRTY and ST. -/
theorem dirtyAndSoundTimerAreNeverRead : Obligations.DirtyAndSoundTimerAreNeverRead := by
  intro i s t b d hx
  have h : Alike true true false s ((s.setDirty b).setSt d) := ((Frame.refl _ s).setDirty b rfl).setSt d rfl
  exact exec_alike h hx

/-- Settles O60: `exec_alike` for two states that differ in stale stack entries. -/
theorem staleStackEntriesAreNeverRead : Obligations.StaleStackEntriesAreNeverRead := by
  intro i s s' t hframe hx
  have h : Alike false false true s s' := hframe
  exact exec_alike h hx

end Sys2Proof.Machine
end

section
/-! PROOFS. The two stores of 42_index_memory.md with their range inside memory, and what a fetch reads after them
(20_memory.md R63, R65, R74). -/

namespace Sys2Proof.Machine

/-! ### A store from `I` upward with its range inside memory -/

/-- A store whose range lies inside memory has its effect whole: the bytes written, all else kept (R63, R76). -/
theorem State.orRaise_storeBytes (s : State) (bs : List Byte) (h : s.i.toNat + bs.length ≤ 4096) :
    s.orRaise (s.storeBytes s.base bs) = .next (s.setMem (s.mem.writeAll s.i.toNat bs)) := by
  rw [State.storeBytes_eq, if_pos (.inr h)]
  rfl

/-- LD [I], Vx with its range inside memory (42_index_memory.md R175). -/
theorem exec_ldMemVx_eq_next (x : Reg) (s : State) (h : s.i.toNat + x.toNat ≤ 4095) :
    exec (.ldMemVx x) s = .next (s.setMem (s.mem.writeAll s.i.toNat (s.regsUpTo x))) :=
  s.orRaise_storeBytes _ (by rw [s.regsUpTo_length x]; omega)

/-- LD B, Vx with its range inside memory (42_index_memory.md R174). -/
theorem exec_ldBVx_eq_next (x : Reg) (s : State) (h : s.i.toNat + 2 ≤ 4095) :
    exec (.ldBVx x) s = .next (s.setMem (s.mem.writeAll s.i.toNat (bcdDigits (s.getV x)))) :=
  s.orRaise_storeBytes _ (by simp only [bcdDigits, List.length_cons, List.length_nil]; omega)

/-! ### Every byte after the two stores -/

/-- The byte `k` of a register dump is `V[k]` (R175). -/
theorem State.regsUpTo_getElem (s : State) (x : Reg) (k : Nat) (h : k < (s.regsUpTo x).length) :
    (s.regsUpTo x)[k] = s.getV (BitVec.ofNat 4 k) := by
  simp [State.regsUpTo]

/-- The byte `k` of LD B is the decimal digit `k` from the left: a byte has no digit above the hundreds (R174). -/
theorem bcdDigits_getElem (v : Byte) (k : Nat) (h : k < (bcdDigits v).length) :
    (bcdDigits v)[k] = BitVec.ofNat 8 (v.toNat / 10 ^ (2 - k) % 10) := by
  have hundreds : v.toNat / 100 % 10 = v.toNat / 100 := by omega
  match k, h with
  | 0, _ => simp [bcdDigits, hundreds]
  | 1, _ => simp [bcdDigits]
  | 2, _ => simp [bcdDigits]

/-- Memory after LD [I], Vx: `V[k]` at `I + k` for `k` up to `x`, every other byte as before (R175). -/
theorem State.read_writeAll_regsUpTo (s : State) (x : Reg) (a : Nat) :
    (s.mem.writeAll s.i.toNat (s.regsUpTo x)).read a =
      s.byteAfterStore (x.toNat + 1) (fun k => s.getV (BitVec.ofNat 4 k)) a := by
  rw [s.read_store_from_i _ _ (s.regsUpTo_getElem x), s.regsUpTo_length]

/-- Memory after LD B, Vx: the digit `k` from the left at `I + k`, every other byte as before (R174). -/
theorem State.read_writeAll_bcdDigits (s : State) (v : Byte) (a : Nat) :
    (s.mem.writeAll s.i.toNat (bcdDigits v)).read a =
      s.byteAfterStore 3 (fun k => BitVec.ofNat 8 (v.toNat / 10 ^ (2 - k) % 10)) a :=
  s.read_store_from_i _ _ (bcdDigits_getElem v) a

/-! ### The next fetch -/

/-- A fetch from `p` after a change of memory joins the two bytes that the new memory holds at `p` and `p + 1`: no
fence, and nothing fetched earlier, stands between (20_memory.md R65, R74). -/
theorem State.fetch_setPc_setMem (s : State) (m : Memory) (p : Word) (hp : p.toNat ≤ 4094) :
    ((s.setMem m).setPc p).fetch = .ok (m.read p.toNat ++ m.read (p.toNat + 1)) := by
  rw [State.fetch_eq, State.setPc_pc, if_pos hp]
  rfl

/-- Settles O37: the fetch reads the memory the store left, byte by byte. -/
theorem storesAreSeenByTheNextFetch : Obligations.StoresAreSeenByTheNextFetch := by
  intro x s
  refine ⟨fun hi => ⟨_, exec_ldMemVx_eq_next x s hi, fun p hp => ?_⟩,
    fun hi => ⟨_, exec_ldBVx_eq_next x s hi, fun p hp => ?_⟩⟩
  · rw [State.fetch_setPc_setMem _ _ p hp, State.read_writeAll_regsUpTo, State.read_writeAll_regsUpTo]
  · rw [State.fetch_setPc_setMem _ _ p hp, State.read_writeAll_bcdDigits, State.read_writeAll_bcdDigits]

end Sys2Proof.Machine
end

section
/-! PROOFS. The decoder and the encoder are inverse to each other, and agree with the opcode map of 30_encoding.md R94:
from the encoder's side every instruction's word is read back, from the decoder's side every answer fits its word. -/

namespace Sys2Proof

/-! ### Decoding the encoder's word -/

/-- Two words of format NNN with the same digit are the same only with the same field (R91). -/
theorem wordNNN_inj {f : Nibble} {nnn nnn' : Addr12} : wordNNN f nnn = wordNNN f nnn' ↔ nnn = nnn' :=
  ⟨fun h => by simpa using congrArg fieldNNN h, congrArg _⟩

theorem sysFieldOk_iff (nnn : Addr12) : sysFieldOk nnn = true ↔ nnn ≠ 0x0E0#12 ∧ nnn ≠ 0x0EE#12 := by
  simp [sysFieldOk]

/-- Family 0 reads every field but the two of CLS and RET as SYS (R97, C3). -/
theorem decodeFamily0_wordNNN {nnn : Addr12} (h : sysFieldOk nnn = true) :
    decodeFamily0 (wordNNN 0x0#4 nnn) = .sys nnn := by
  obtain ⟨hcls, hret⟩ := (sysFieldOk_iff nnn).1 h
  have hcls' : wordNNN 0x0#4 nnn ≠ 0x00E0#16 := (wordNNN_inj (nnn' := 0x0E0#12)).not.2 hcls
  have hret' : wordNNN 0x0#4 nnn ≠ 0x00EE#16 := (wordNNN_inj (nnn' := 0x0EE#12)).not.2 hret
  rw [decodeFamily0, if_neg hcls', if_neg hret', fieldNNN_wordNNN]

/-- The decoder reads the encoder's word back, every operand kept (R92, R94, R95). -/
theorem decodeWord_encode (i : Instr) (h : i.wellFormed = true) : decodeWord (encode i) = .ok i := by
  cases i with
  | cls | ret => rfl
  | sys nnn => simp [encode, decodeWord, decodeFamily0_wordNNN h]
  | jp nnn | call nnn | ldI nnn | jpV0 nnn | seVxKk x kk | sneVxKk x kk | ldVxKk x kk | addVxKk x kk | rnd x kk
  | seVxVy x y | sneVxVy x y | drw x y n => simp [encode, decodeWord]
  | ldVxVy x y | orVxVy x y | andVxVy x y | xorVxVy x y | addVxVy x y | subVxVy x y | shrVx x y | subnVxVy x y
  | shlVx x y => simp [encode, decodeWord, decodeFamily8]
  | skp x | sknp x => simp [encode, decodeWord, decodeFamilyE]
  | ldVxDt x | ldVxK x | ldDtVx x | ldStVx x | addIVx x | ldFVx x | ldBVx x | ldMemVx x | ldVxMem x =>
    simp [encode, decodeWord, decodeFamilyF]

/-- A word is its high byte and its low byte (20_memory.md R65). -/
theorem highByte_append_lowByte (op : Word) : highByte op ++ lowByte op = op := by
  apply BitVec.eq_of_getLsbD_eq
  intro j hj
  rw [BitVec.getLsbD_append]
  interval_cases j <;> simp [highByte, lowByte]

/-- Settles O3: the two bytes make the encoder's word, which `decodeWord_encode` reads back. -/
theorem decodeOfEncodeIsIdentity : Obligations.DecodeOfEncodeIsIdentity := by
  intro i rest h
  rw [encodeBytes, List.cons_append, List.cons_append, List.nil_append, decode_eq, highByte_append_lowByte,
    decodeWord_encode i h]
  rfl

/-- Settles O2: each pattern is the encoder's word of its row's instruction. -/
theorem decodeReadsEveryPattern : Obligations.DecodeReadsEveryPattern := by
  intro x y n kk nnn
  have hsys : nnn ≠ 0x0E0#12 → nnn ≠ 0x0EE#12 → decodeWord (encode (.sys nnn)) = .ok (.sys nnn) :=
    fun hcls hret => decodeWord_encode _ ((sysFieldOk_iff nnn).2 ⟨hcls, hret⟩)
  exact ⟨rfl, rfl, hsys, decodeWord_encode (.jp nnn) rfl, decodeWord_encode (.call nnn) rfl,
    decodeWord_encode (.seVxKk x kk) rfl, decodeWord_encode (.sneVxKk x kk) rfl, decodeWord_encode (.seVxVy x y) rfl,
    decodeWord_encode (.ldVxKk x kk) rfl, decodeWord_encode (.addVxKk x kk) rfl, decodeWord_encode (.ldVxVy x y) rfl,
    decodeWord_encode (.orVxVy x y) rfl, decodeWord_encode (.andVxVy x y) rfl, decodeWord_encode (.xorVxVy x y) rfl,
    decodeWord_encode (.addVxVy x y) rfl, decodeWord_encode (.subVxVy x y) rfl, decodeWord_encode (.shrVx x y) rfl,
    decodeWord_encode (.subnVxVy x y) rfl, decodeWord_encode (.shlVx x y) rfl, decodeWord_encode (.sneVxVy x y) rfl,
    decodeWord_encode (.ldI nnn) rfl, decodeWord_encode (.jpV0 nnn) rfl, decodeWord_encode (.rnd x kk) rfl,
    decodeWord_encode (.drw x y n) rfl, decodeWord_encode (.skp x) rfl, decodeWord_encode (.sknp x) rfl,
    decodeWord_encode (.ldVxDt x) rfl, decodeWord_encode (.ldVxK x) rfl, decodeWord_encode (.ldDtVx x) rfl,
    decodeWord_encode (.ldStVx x) rfl, decodeWord_encode (.addIVx x) rfl, decodeWord_encode (.ldFVx x) rfl,
    decodeWord_encode (.ldBVx x) rfl, decodeWord_encode (.ldMemVx x) rfl, decodeWord_encode (.ldVxMem x) rfl⟩

/-- Settles O1: the bytes are those of the encoder, with nothing after them. -/
theorem specExampleBytesDecode : Obligations.SpecExampleBytesDecode :=
  ⟨decodeOfEncodeIsIdentity (.drw 1#4 2#4 5#4) [] rfl, decodeOfEncodeIsIdentity (.ldVxKk 0xA#4 0x3C#8) [] rfl,
    decodeOfEncodeIsIdentity (.jp 0x2F0#12) [] rfl, decodeOfEncodeIsIdentity (.sys 0x123#12) [] rfl,
    decodeOfEncodeIsIdentity .ret [] rfl, decodeOfEncodeIsIdentity (.skp 4#4) [] rfl,
    decodeOfEncodeIsIdentity (.ldVxK 5#4) [] rfl, decodeOfEncodeIsIdentity (.ldI 0x2F0#12) [] rfl⟩

/-! ### A word from its fixed fields: the digits and the byte that key the decoder (R95) -/

section
variable {op : Word} {f n : Nibble} {kk : Byte}

theorem wordNNN_of_family (hf : fieldFamily op = f) : wordNNN f (fieldNNN op) = op :=
  hf ▸ wordNNN_fields op

theorem wordXKK_of_family (hf : fieldFamily op = f) : wordXKK f (fieldX op) (fieldKK op) = op :=
  hf ▸ wordXKK_fields op

theorem wordXYN_of_family (hf : fieldFamily op = f) : wordXYN f (fieldX op) (fieldY op) (fieldN op) = op :=
  hf ▸ wordXYN_fields op

theorem wordXYN_of_digit (hf : fieldFamily op = f) (hn : fieldN op = n) :
    wordXYN f (fieldX op) (fieldY op) n = op :=
  hn ▸ wordXYN_of_family hf

theorem wordXKK_of_byte (hf : fieldFamily op = f) (hk : fieldKK op = kk) : wordXKK f (fieldX op) kk = op :=
  hk ▸ wordXKK_of_family hf

end

/-! ### What the decoder answers on any word -/

/-- The words R98 lists as illegal (families 5 and 9 by D17). -/
def IllegalWord (op : Word) : Prop :=
  (fieldFamily op = 0x5#4 ∧ fieldN op ≠ 0#4) ∨
  (fieldFamily op = 0x8#4 ∧ fieldN op ∈ [0x8#4, 0x9#4, 0xA#4, 0xB#4, 0xC#4, 0xD#4, 0xF#4]) ∨
  (fieldFamily op = 0x9#4 ∧ fieldN op ≠ 0#4) ∨
  (fieldFamily op = 0xE#4 ∧ fieldKK op ∉ [0x9E#8, 0xA1#8]) ∨
  (fieldFamily op = 0xF#4 ∧
    fieldKK op ∉ [0x07#8, 0x0A#8, 0x15#8, 0x18#8, 0x1E#8, 0x29#8, 0x33#8, 0x55#8, 0x65#8])

/-- What an answer of the decoder says of its word: an instruction is well-formed and encodes to the word, and a word
rejected is one of the list of R98. -/
def AnswerFits (op : Word) : Except DecodeError Instr → Prop
  | .ok i => i.wellFormed = true ∧ encode i = op
  | .error _ => IllegalWord op

section
variable {op : Word}

/-- The field of a word of family 0 is that of CLS or RET only in the word of CLS or RET (R97). -/
theorem sysFieldOk_of_word (hf : fieldFamily op = 0x0#4) (hcls : op ≠ 0x00E0#16) (hret : op ≠ 0x00EE#16) :
    sysFieldOk (fieldNNN op) = true := by
  rw [← wordNNN_of_family hf] at hcls hret
  exact (sysFieldOk_iff _).2 ⟨fun h => hcls (congrArg _ h), fun h => hret (congrArg _ h)⟩

theorem decodeFamily0_fits (hf : fieldFamily op = 0x0#4) : AnswerFits op (.ok (decodeFamily0 op)) := by
  unfold decodeFamily0
  split_ifs with hcls hret
  · exact ⟨rfl, hcls.symm⟩
  · exact ⟨rfl, hret.symm⟩
  · exact ⟨sysFieldOk_of_word hf hcls hret, wordNNN_of_family hf⟩

theorem decodeFamily8_fits (hf : fieldFamily op = 0x8#4) : AnswerFits op (decodeFamily8 op) := by
  unfold decodeFamily8
  split
  case h_10 =>
    refine .inr (.inl ⟨hf, ?_⟩)
    simp only [imp_false, List.mem_cons, List.not_mem_nil, or_false, ← BitVec.toNat_inj, BitVec.toNat_ofNat] at *
    omega
  all_goals next hn => exact ⟨rfl, wordXYN_of_digit hf (BitVec.eq_of_toNat_eq hn)⟩

theorem decodeFamilyE_fits (hf : fieldFamily op = 0xE#4) : AnswerFits op (decodeFamilyE op) := by
  unfold decodeFamilyE
  split
  case h_3 =>
    refine .inr (.inr (.inr (.inl ⟨hf, ?_⟩)))
    simp only [imp_false, List.mem_cons, List.not_mem_nil, or_false, ← BitVec.toNat_inj, BitVec.toNat_ofNat] at *
    omega
  all_goals next hk => exact ⟨rfl, wordXKK_of_byte hf (BitVec.eq_of_toNat_eq hk)⟩

theorem decodeFamilyF_fits (hf : fieldFamily op = 0xF#4) : AnswerFits op (decodeFamilyF op) := by
  unfold decodeFamilyF
  split
  case h_10 =>
    refine .inr (.inr (.inr (.inr ⟨hf, ?_⟩)))
    simp only [imp_false, List.mem_cons, List.not_mem_nil, or_false, ← BitVec.toNat_inj, BitVec.toNat_ofNat] at *
    omega
  all_goals next hk => exact ⟨rfl, wordXKK_of_byte hf (BitVec.eq_of_toNat_eq hk)⟩

end

/-- Every answer of the decoder fits its word.  The arm after `k` others of `decodeWord` is family `k`. -/
theorem decodeWord_fits (op : Word) : AnswerFits op (decodeWord op) := by
  unfold decodeWord
  split <;> rename_i hf
  case h_16 =>
    refine decodeFamilyF_fits ?_
    simp only [imp_false] at *
    bv_omega
  case h_1 => exact decodeFamily0_fits (BitVec.eq_of_toNat_eq hf)
  case h_6 =>
    split
    · next hn => exact ⟨rfl, wordXYN_of_digit (BitVec.eq_of_toNat_eq hf) hn⟩
    · next hn => exact .inl ⟨BitVec.eq_of_toNat_eq hf, hn⟩
  case h_9 => exact decodeFamily8_fits (BitVec.eq_of_toNat_eq hf)
  case h_10 =>
    split
    · next hn => exact ⟨rfl, wordXYN_of_digit (BitVec.eq_of_toNat_eq hf) hn⟩
    · next hn => exact .inr (.inr (.inl ⟨BitVec.eq_of_toNat_eq hf, hn⟩))
  case h_15 => exact decodeFamilyE_fits (BitVec.eq_of_toNat_eq hf)
  case h_14 => exact ⟨rfl, wordXYN_of_family (BitVec.eq_of_toNat_eq hf)⟩
  case h_2 | h_3 | h_11 | h_12 => exact ⟨rfl, wordNNN_of_family (BitVec.eq_of_toNat_eq hf)⟩
  case h_4 | h_5 | h_7 | h_8 | h_13 => exact ⟨rfl, wordXKK_of_family (BitVec.eq_of_toNat_eq hf)⟩

/-- Settles O4: `decodeWord_fits` for a word that decodes. -/
theorem encodeOfDecodeIsIdentity : Obligations.EncodeOfDecodeIsIdentity := by
  intro op i h
  have hfits := decodeWord_fits op
  rwa [h] at hfits

/-- The encoder's word of an instruction is not illegal. -/
theorem encode_legal (i : Instr) : ¬ IllegalWord (encode i) := by
  cases i with
  | cls | ret => unfold IllegalWord; decide
  | _ => simp [IllegalWord, encode]

/-- Settles O5: an answer that is an error is one of an illegal word, and an answer that is an instruction encodes to
the word, which is then legal. -/
theorem illegalWordsAreThoseListed : Obligations.IllegalWordsAreThoseListed := by
  intro op
  have hfits := decodeWord_fits op
  show (∃ e, decodeWord op = .error e) ↔ IllegalWord op
  cases hd : decodeWord op with
  | error e =>
    rw [hd] at hfits
    exact ⟨fun _ => hfits, fun _ => ⟨e, rfl⟩⟩
  | ok i =>
    rw [hd] at hfits
    obtain ⟨-, rfl⟩ := hfits
    exact ⟨nofun, fun h => absurd h (encode_legal i)⟩

/-! ### The rows of the opcode map -/

theorem rowMatches_iff (r : OpcodeRow) (op : Word) :
    rowMatches r op = true ↔ op &&& r.mask = r.pattern ∧ op ∉ r.except := by
  simp [rowMatches]

/-- The family mask of a row fixes the first digit. -/
theorem fieldFamily_of_mask {op p : Word} (h : op &&& 0xF000#16 = p) : fieldFamily op = fieldFamily p := by
  rw [← h, ← wordNNN_fields op, Laws.RowFit.wordNNN_family]
  simp

/-- The mask of format XYF fixes the first and the last digit. -/
theorem fields_of_mask_XYF {op p : Word} (h : op &&& 0xF00F#16 = p) :
    fieldFamily op = fieldFamily p ∧ fieldN op = fieldN p := by
  rw [← h, ← wordXYN_fields op, Laws.RowFit.wordXYN_function]
  simp

/-- The mask of format XFF fixes the first digit and the low byte. -/
theorem fields_of_mask_XFF {op p : Word} (h : op &&& 0xF0FF#16 = p) :
    fieldFamily op = fieldFamily p ∧ fieldKK op = fieldKK p := by
  rw [← h, ← wordXKK_fields op, Laws.RowFit.wordXKK_function]
  simp

/-- The word encodes a well-formed instruction with the row's mnemonic. -/
def EncodesRow (r : OpcodeRow) (op : Word) : Prop :=
  ∃ i : Instr, i.wellFormed = true ∧ encode i = op ∧ mnemonicOf i = r.mnemonic

section
variable {m : String} {p op : Word} {f n : Nibble} {kk : Byte}

/-- A row whose mask is the whole word has the one word. -/
theorem word_of_row_fixed (h : rowMatches ⟨m, 0xFFFF#16, p, []⟩ op = true) : p = op :=
  ((rowMatches_iff _ op).1 h).1.symm.trans BitVec.and_allOnes

theorem word_of_row_NNN (h : rowMatches ⟨m, 0xF000#16, p, []⟩ op = true) (hf : fieldFamily p = f) :
    wordNNN f (fieldNNN op) = op :=
  wordNNN_of_family ((fieldFamily_of_mask ((rowMatches_iff _ op).1 h).1).trans hf)

theorem word_of_row_XKK (h : rowMatches ⟨m, 0xF000#16, p, []⟩ op = true) (hf : fieldFamily p = f) :
    wordXKK f (fieldX op) (fieldKK op) = op :=
  wordXKK_of_family ((fieldFamily_of_mask ((rowMatches_iff _ op).1 h).1).trans hf)

theorem word_of_row_XYN (h : rowMatches ⟨m, 0xF000#16, p, []⟩ op = true) (hf : fieldFamily p = f) :
    wordXYN f (fieldX op) (fieldY op) (fieldN op) = op :=
  wordXYN_of_family ((fieldFamily_of_mask ((rowMatches_iff _ op).1 h).1).trans hf)

theorem word_of_row_XYF (h : rowMatches ⟨m, 0xF00F#16, p, []⟩ op = true) (hf : fieldFamily p = f)
    (hn : fieldN p = n) : wordXYN f (fieldX op) (fieldY op) n = op := by
  obtain ⟨hf', hn'⟩ := fields_of_mask_XYF ((rowMatches_iff _ op).1 h).1
  exact wordXYN_of_digit (hf'.trans hf) (hn'.trans hn)

theorem word_of_row_XFF (h : rowMatches ⟨m, 0xF0FF#16, p, []⟩ op = true) (hf : fieldFamily p = f)
    (hk : fieldKK p = kk) : wordXKK f (fieldX op) kk = op := by
  obtain ⟨hf', hk'⟩ := fields_of_mask_XFF ((rowMatches_iff _ op).1 h).1
  exact wordXKK_of_byte (hf'.trans hf) (hk'.trans hk)

end

theorem encodesRow_sys (op : Word)
    (h : rowMatches ⟨"SYS_nnn", 0xF000#16, 0x0000#16, [0x00E0#16, 0x00EE#16]⟩ op = true) :
    EncodesRow ⟨"SYS_nnn", 0xF000#16, 0x0000#16, [0x00E0#16, 0x00EE#16]⟩ op := by
  obtain ⟨hmask, hexcept⟩ := (rowMatches_iff _ op).1 h
  have hf : fieldFamily op = 0x0#4 := fieldFamily_of_mask hmask
  simp only [List.mem_cons, List.not_mem_nil, or_false, not_or] at hexcept
  obtain ⟨hcls, hret⟩ := hexcept
  exact ⟨.sys (fieldNNN op), sysFieldOk_of_word hf hcls hret, wordNNN_of_family hf, rfl⟩

theorem encodesRow_low (op : Word) : ∀ r ∈ opcodeRowsLow, rowMatches r op = true → EncodesRow r op := by
  simp only [opcodeRowsLow, List.forall_mem_cons]
  exact ⟨
    fun h => ⟨.cls, rfl, word_of_row_fixed h, rfl⟩,
    fun h => ⟨.ret, rfl, word_of_row_fixed h, rfl⟩,
    encodesRow_sys op,
    fun h => ⟨.jp _, rfl, word_of_row_NNN h rfl, rfl⟩,
    fun h => ⟨.call _, rfl, word_of_row_NNN h rfl, rfl⟩,
    fun h => ⟨.seVxKk _ _, rfl, word_of_row_XKK h rfl, rfl⟩,
    fun h => ⟨.sneVxKk _ _, rfl, word_of_row_XKK h rfl, rfl⟩,
    fun h => ⟨.seVxVy _ _, rfl, word_of_row_XYF h rfl rfl, rfl⟩,
    fun h => ⟨.ldVxKk _ _, rfl, word_of_row_XKK h rfl, rfl⟩,
    fun h => ⟨.addVxKk _ _, rfl, word_of_row_XKK h rfl, rfl⟩,
    nofun⟩

theorem encodesRow_8 (op : Word) : ∀ r ∈ opcodeRows8, rowMatches r op = true → EncodesRow r op := by
  simp only [opcodeRows8, List.forall_mem_cons]
  exact ⟨
    fun h => ⟨.ldVxVy _ _, rfl, word_of_row_XYF h rfl rfl, rfl⟩,
    fun h => ⟨.orVxVy _ _, rfl, word_of_row_XYF h rfl rfl, rfl⟩,
    fun h => ⟨.andVxVy _ _, rfl, word_of_row_XYF h rfl rfl, rfl⟩,
    fun h => ⟨.xorVxVy _ _, rfl, word_of_row_XYF h rfl rfl, rfl⟩,
    fun h => ⟨.addVxVy _ _, rfl, word_of_row_XYF h rfl rfl, rfl⟩,
    fun h => ⟨.subVxVy _ _, rfl, word_of_row_XYF h rfl rfl, rfl⟩,
    fun h => ⟨.shrVx _ _, rfl, word_of_row_XYF h rfl rfl, rfl⟩,
    fun h => ⟨.subnVxVy _ _, rfl, word_of_row_XYF h rfl rfl, rfl⟩,
    fun h => ⟨.shlVx _ _, rfl, word_of_row_XYF h rfl rfl, rfl⟩,
    nofun⟩

theorem encodesRow_high (op : Word) : ∀ r ∈ opcodeRowsHigh, rowMatches r op = true → EncodesRow r op := by
  simp only [opcodeRowsHigh, List.forall_mem_cons]
  exact ⟨
    fun h => ⟨.sneVxVy _ _, rfl, word_of_row_XYF h rfl rfl, rfl⟩,
    fun h => ⟨.ldI _, rfl, word_of_row_NNN h rfl, rfl⟩,
    fun h => ⟨.jpV0 _, rfl, word_of_row_NNN h rfl, rfl⟩,
    fun h => ⟨.rnd _ _, rfl, word_of_row_XKK h rfl, rfl⟩,
    fun h => ⟨.drw _ _ _, rfl, word_of_row_XYN h rfl, rfl⟩,
    fun h => ⟨.skp _, rfl, word_of_row_XFF h rfl rfl, rfl⟩,
    fun h => ⟨.sknp _, rfl, word_of_row_XFF h rfl rfl, rfl⟩,
    fun h => ⟨.ldVxDt _, rfl, word_of_row_XFF h rfl rfl, rfl⟩,
    fun h => ⟨.ldVxK _, rfl, word_of_row_XFF h rfl rfl, rfl⟩,
    fun h => ⟨.ldDtVx _, rfl, word_of_row_XFF h rfl rfl, rfl⟩,
    fun h => ⟨.ldStVx _, rfl, word_of_row_XFF h rfl rfl, rfl⟩,
    fun h => ⟨.addIVx _, rfl, word_of_row_XFF h rfl rfl, rfl⟩,
    fun h => ⟨.ldFVx _, rfl, word_of_row_XFF h rfl rfl, rfl⟩,
    fun h => ⟨.ldBVx _, rfl, word_of_row_XFF h rfl rfl, rfl⟩,
    fun h => ⟨.ldMemVx _, rfl, word_of_row_XFF h rfl rfl, rfl⟩,
    fun h => ⟨.ldVxMem _, rfl, word_of_row_XFF h rfl rfl, rfl⟩,
    nofun⟩

/-- A word of a row decodes to an instruction with the row's mnemonic (R94, R95). -/
theorem decodeWord_of_rowMatches {r : OpcodeRow} {op : Word} (hr : r ∈ opcodeRows) (h : rowMatches r op = true) :
    ∃ i, decodeWord op = .ok i ∧ mnemonicOf i = r.mnemonic := by
  have hencodes : EncodesRow r op := by
    simp only [opcodeRows, List.mem_append] at hr
    obtain (hr | hr) | hr := hr
    · exact encodesRow_low op r hr h
    · exact encodesRow_8 op r hr h
    · exact encodesRow_high op r hr h
  obtain ⟨i, hwf, rfl, hm⟩ := hencodes
  exact ⟨i, decodeWord_encode i hwf, hm⟩

/-- The mnemonic names the row: no two rows have the same. -/
theorem opcodeRows_mnemonic_inj : ∀ r ∈ opcodeRows, ∀ r' ∈ opcodeRows, r.mnemonic = r'.mnemonic → r = r' := by
  decide

/-- Settles O6: the word decodes to one instruction, whose mnemonic is that of both rows. -/
theorem opcodeRowsAreDisjoint : Obligations.OpcodeRowsAreDisjoint := by
  intro op r r' hr hr' h h'
  obtain ⟨i, hi, hm⟩ := decodeWord_of_rowMatches hr h
  obtain ⟨i', hi', hm'⟩ := decodeWord_of_rowMatches hr' h'
  obtain rfl : i = i' := Except.ok.inj (hi.symm.trans hi')
  exact opcodeRows_mnemonic_inj r hr r' hr' (hm.symm.trans hm')

open Laws in
/-- Every well-formed instruction fits its row: the statements of `Laws.RowFit` together. -/
theorem rowFit_statement : ∀ i : Instr, RowFit.Statement i
  | .cls => RowFit.cls | .ret => RowFit.ret | .sys nnn => RowFit.sys nnn | .jp nnn => RowFit.jp nnn
  | .call nnn => RowFit.call nnn | .seVxKk x kk => RowFit.seVxKk x kk | .sneVxKk x kk => RowFit.sneVxKk x kk
  | .seVxVy x y => RowFit.seVxVy x y | .ldVxKk x kk => RowFit.ldVxKk x kk | .addVxKk x kk => RowFit.addVxKk x kk
  | .ldVxVy x y => RowFit.ldVxVy x y | .orVxVy x y => RowFit.orVxVy x y | .andVxVy x y => RowFit.andVxVy x y
  | .xorVxVy x y => RowFit.xorVxVy x y | .addVxVy x y => RowFit.addVxVy x y | .subVxVy x y => RowFit.subVxVy x y
  | .shrVx x y => RowFit.shrVx x y | .subnVxVy x y => RowFit.subnVxVy x y | .shlVx x y => RowFit.shlVx x y
  | .sneVxVy x y => RowFit.sneVxVy x y | .ldI nnn => RowFit.ldI nnn | .jpV0 nnn => RowFit.jpV0 nnn
  | .rnd x kk => RowFit.rnd x kk | .drw x y n => RowFit.drw x y n | .skp x => RowFit.skp x
  | .sknp x => RowFit.sknp x | .ldVxDt x => RowFit.ldVxDt x | .ldVxK x => RowFit.ldVxK x
  | .ldDtVx x => RowFit.ldDtVx x | .ldStVx x => RowFit.ldStVx x | .addIVx x => RowFit.addIVx x
  | .ldFVx x => RowFit.ldFVx x | .ldBVx x => RowFit.ldBVx x | .ldMemVx x => RowFit.ldMemVx x
  | .ldVxMem x => RowFit.ldVxMem x

/-- Settles O7: a word of a row is an encoding with the row's mnemonic; a word that decodes is an encoding, so it
belongs to a row. -/
theorem decodeAgreesWithOpcodeRows : Obligations.DecodeAgreesWithOpcodeRows := by
  refine ⟨fun op r hr h => decodeWord_of_rowMatches hr h, fun op hnone => ?_⟩
  cases hd : decodeWord op with
  | error e => exact ⟨e, rfl⟩
  | ok i =>
    obtain ⟨hwf, rfl⟩ := encodeOfDecodeIsIdentity op i hd
    obtain ⟨r, hr, -, hmatch⟩ := rowFit_statement i hwf
    rw [hnone r hr] at hmatch
    cases hmatch

end Sys2Proof
end

section
/-! PROOFS. The shifts of 41_alu.md R150 and R152. -/

namespace Sys2Proof.Machine

/-- A result and then the flag change `V[x]` and `VF` alone (R141). -/
theorem Frame.setResultFlag (s : State) (x : Reg) (b f : Byte) :
    Frame { v := fun r => r == x || r == regVF } s (s.setResultFlag x b f) :=
  ((Frame.refl _ s).setV b (by simp)).setV f (by simp)

/-- The flag wins: `VF` holds it whatever the destination (R141, D11). -/
theorem State.setResultFlag_flag (s : State) (x : Reg) (b f : Byte) : (s.setResultFlag x b f).getV regVF = f := by
  rw [State.getV_setResultFlag, if_pos rfl]

/-- The result stands in any destination but `VF` (R141). -/
theorem State.setResultFlag_result (s : State) {x : Reg} (b f : Byte) (h : x ≠ regVF) :
    (s.setResultFlag x b f).getV x = b := by
  rw [State.getV_setResultFlag, if_neg h, if_pos rfl]

theorem flagByte_toNat (c : Bool) : (flagByte c).toNat = c.toNat := by
  cases c <;> rfl

/-- The bit a right shift moves out is the byte's remainder by 2 (R150). -/
theorem lowBitFlag_toNat (b : Byte) : (lowBitFlag b).toNat = b.toNat % 2 := by
  rw [lowBitFlag, flagByte_toNat, ← BitVec.testBit_toNat, Nat.toNat_testBit, pow_zero, Nat.div_one]

/-- The bit a left shift moves out is the byte's quotient by 128 (R152). -/
theorem highBitFlag_toNat (b : Byte) : (highBitFlag b).toNat = b.toNat / 128 := by
  rw [highBitFlag, flagByte_toNat, ← BitVec.testBit_toNat, Nat.toNat_testBit]
  omega

/-- Settles O27: each shift is a result and then the flag, in neither of which `y` stands. -/
theorem shiftsActInPlaceAndIgnoreY : Obligations.ShiftsActInPlaceAndIgnoreY := by
  intro x y s
  refine ⟨⟨_, rfl, ?_, fun hx => ?_, Frame.setResultFlag ..⟩, ⟨_, rfl, ?_, fun hx => ?_, Frame.setResultFlag ..⟩⟩
  · rw [State.setResultFlag_flag, lowBitFlag_toNat]
  · rw [State.setResultFlag_result _ _ _ hx, BitVec.toNat_ushiftRight, Nat.shiftRight_eq_div_pow, pow_one]
  · rw [State.setResultFlag_flag, highBitFlag_toNat]
  · rw [State.setResultFlag_result _ _ _ hx, BitVec.toNat_shiftLeft, Nat.shiftLeft_eq, pow_one, Nat.mul_comm]

end Sys2Proof.Machine
end

section
/-! PROOFS. The control-flow instructions of 40_control_flow.md: SYS, the jumps, CALL and RET apart and together, and
the skips. -/

namespace Sys2Proof.Machine

/-- What changes in two steps, each inside the frame, has changed inside it. -/
theorem Frame.trans {touch : Touch} {s t u : State} (hst : Frame touch s t) (htu : Frame touch t u) :
    Frame touch s u where
  v r h := (htu.v r h).trans (hst.v r h)
  i h := (htu.i h).trans (hst.i h)
  pc h := (htu.pc h).trans (hst.pc h)
  sp h := (htu.sp h).trans (hst.sp h)
  stack j hj h := (htu.stack j hj h).trans (hst.stack j hj h)
  dt h := (htu.dt h).trans (hst.dt h)
  st h := (htu.st h).trans (hst.st h)
  disp h px py := (htu.disp h px py).trans (hst.disp h px py)
  dirty h := (htu.dirty h).trans (hst.dirty h)
  wait h := (htu.wait h).trans (hst.wait h)
  fault h := (htu.fault h).trans (hst.fault h)
  keys h k := (htu.keys h k).trans (hst.keys h k)
  mem a h := (htu.mem a h).trans (hst.mem a h)
  draws h := (htu.draws h).trans (hst.draws h)

/-! ### SYS and the jumps -/

/-- Settles O15: the decoder reads every pattern, and a Step runs what it reads. -/
theorem sysIsANoOperation : Obligations.SysIsANoOperation := by
  refine ⟨decodeWord_encode .cls rfl, decodeWord_encode .ret rfl, fun nnn hcls hret => ?_⟩
  have hdecode : decodeWord (wordNNN 0x0#4 nnn) = .ok (.sys nnn) :=
    decodeWord_encode (.sys nnn) ((sysFieldOk_iff nnn).2 ⟨hcls, hret⟩)
  exact ⟨hdecode, fun _ => rfl, fun s hf hp hword =>
    stepRunsTheDecodedInstruction s (.sys nnn) hf hp (hword ▸ hdecode)⟩

/-- Settles O16: the target is `nnn`, zero-extended. -/
theorem jumpSetsPcExactly : Obligations.JumpSetsPcExactly := fun nnn s =>
  ⟨s.setPc (addr16 nnn), rfl, addr16_toNat nnn, exec_frame (i := .jp nnn) rfl⟩

/-- The target of JP V0 is the sum of the natural numbers: it fits 16 bits (R124, D29). -/
theorem State.offsetTarget_toNat (s : State) (nnn : Addr12) :
    (s.offsetTarget nnn).toNat = nnn.toNat + (s.getV 0#4).toNat := by
  have hn := nnn.isLt
  have hv := (s.getV 0#4).isLt
  simp only [State.offsetTarget, State.getV16, BitVec.toNat_add, addr16_toNat, BitVec.toNat_setWidth]
  omega

/-- Settles O17: the target is `State.offsetTarget_toNat`, and above 4094 it is no legal fetch address. -/
theorem offsetJumpAddsV0 : Obligations.OffsetJumpAddsV0 := by
  intro nnn s
  have hsum := s.offsetTarget_toNat nnn
  refine ⟨s.setPc (s.offsetTarget nnn), rfl, hsum, ?_, exec_frame (i := .jpV0 nnn) rfl, fun hf hbeyond => ?_⟩
  · have hn := nnn.isLt
    have hv := (s.getV 0#4).isLt
    rw [State.setPc_pc, hsum]
    omega
  · exact ⟨_, runStep_of_bad_pc exec (s.setPc (s.offsetTarget nnn)) hf (hbeyond.trans_eq hsum.symm), rfl⟩

/-! ### CALL and RET -/

/-- CALL with room on the stack (R125). -/
theorem exec_call_eq_next {s t : State} (nnn : Addr12) (h : s.push s.pc = .ok t) :
    exec (.call nnn) s = .next (t.setPc (addr16 nnn)) := by
  show s.orRaise ((s.push s.pc).map fun t => t.setPc (addr16 nnn)) = _
  rw [h]
  rfl

/-- RET with an entry in use (R122). -/
theorem exec_ret_eq_next {s t : State} (h : s.popPc = .ok t) : exec .ret s = .next t := by
  show s.orRaise s.popPc = _
  rw [h]
  rfl

/-- Settles O18: CALL is a push of PC and then a jump. -/
theorem callPushesAndJumps : Obligations.CallPushesAndJumps := by
  intro nnn s h
  refine ⟨_, exec_call_eq_next nnn (s.push_ok s.pc h), Vector.getElem_set_self h, rfl, addr16_toNat nnn, ?_⟩
  exact { Frame.refl _ s with
    pc := nofun
    sp := nofun
    stack := fun j hj hne => Vector.getElem_set_ne h hj (ne_of_beq_false hne).symm }

/-- Settles O19: RET is a pop into PC, which writes no entry of the stack. -/
theorem returnPopsIntoPc : Obligations.ReturnPopsIntoPc := fun s h =>
  ⟨_, exec_ret_eq_next (s.popPc_ok h), rfl, rfl, (Frame.refl _ s).popPc (s.popPc_ok h) rfl rfl⟩

/-- Settles O21: RET pops the entry that CALL pushed and takes back what CALL added to SP, by what O18 and O19 say of
each; the entry stays in the stack. -/
theorem callThenReturnComesBack : Obligations.CallThenReturnComesBack := by
  intro nnn s h
  obtain ⟨t, hcall, hentry, hsp, -, hst⟩ := callPushesAndJumps nnn s h
  obtain ⟨u, hret, hpc, hsp', htu⟩ := returnPopsIntoPc t (by omega)
  have hslot : t.sp.val - 1 = s.sp.val := by omega
  have hpc : u.pc = s.pc := by simpa only [hslot, hentry] using hpc
  have hsp : u.sp = s.sp := Fin.ext (hsp'.trans hslot)
  have htu : Frame { pc := true, sp := true, stack := fun j => j == s.sp.val } t u :=
    { htu with stack := fun j hj _ => htu.stack j hj rfl }
  exact ⟨t, u, hcall, hret, hpc, hsp, { hst.trans htu with pc := fun _ => hpc, sp := fun _ => hsp }⟩

/-! ### The skips -/

/-- A skip whose test decides `p` adds 2 to PC exactly when `p` holds, and changes nothing else (R120). -/
theorem skip_adds_two {i : Instr} {s : State} {c : Bool} {p : Prop} [Decidable p]
    (h : exec i s = .next (s.skipIf c)) (hc : c = true ↔ p) :
    ∃ t, exec i s = .next t ∧ t.pc = (if p then s.pc + 2#16 else s.pc) ∧ Frame { pc := true } s t := by
  refine ⟨_, h, ?_, (Frame.refl _ s).skipIf c rfl⟩
  rw [State.skipIf_pc]
  exact if_congr hc rfl rfl

/-- Settles O22: each of the four is a skip on the equality or the inequality of its operands. -/
theorem skipsAddTwoOnTheirCondition : Obligations.SkipsAddTwoOnTheirCondition := fun _ _ _ _ =>
  ⟨skip_adds_two rfl beq_iff_eq, skip_adds_two rfl bne_iff_ne, skip_adds_two rfl beq_iff_eq,
    skip_adds_two rfl bne_iff_ne⟩

end Sys2Proof.Machine
end

section
/-! PROOFS. The register loads, arithmetic, logic and RND of 41_alu.md R142 to R149, R151 and R153, and ADD undone by
SUB. -/

namespace Sys2Proof.Machine

/-! ### The instructions without a flag -/

/-- Settles O23: each writes one register, and the sum of bytes is modulo 256. -/
theorem immediateLoadAndAdd : Obligations.ImmediateLoadAndAdd := by
  intro x kk s
  refine ⟨⟨_, rfl, s.getV_setV_same x kk, exec_frame (i := .ldVxKk x kk) rfl⟩,
    ⟨_, rfl, ?_, exec_frame (i := .addVxKk x kk) rfl⟩⟩
  rw [State.getV_setV_same, BitVec.toNat_add]

/-- Settles O24: each writes one register, with the copied byte or with a bitwise operation of the bytes. -/
theorem copyAndLogicActBitByBit : Obligations.CopyAndLogicActBitByBit := by
  intro x y s
  refine ⟨⟨_, rfl, s.getV_setV_same x _, exec_frame (i := .ldVxVy x y) rfl⟩,
    ⟨_, rfl, fun j _ => ?_, exec_frame (i := .orVxVy x y) rfl⟩,
    ⟨_, rfl, fun j _ => ?_, exec_frame (i := .andVxVy x y) rfl⟩,
    ⟨_, rfl, fun j _ => ?_, exec_frame (i := .xorVxVy x y) rfl⟩⟩
  · rw [State.getV_setV_same, BitVec.getLsbD_or]
  · rw [State.getV_setV_same, BitVec.getLsbD_and]
  · rw [State.getV_setV_same, BitVec.getLsbD_xor]

/-- Settles O28: the register holds the drawn byte under the mask; 0xFF masks nothing. -/
theorem randomByteIsMasked : Obligations.RandomByteIsMasked := by
  intro x kk s
  have hx : (s.setV x (Config.rndByte s.draws &&& kk)).countDraw.getV x = Config.rndByte s.draws &&& kk := by
    rw [State.countDraw_getV, State.getV_setV_same]
  refine ⟨_, rfl, hx, fun j hj => ?_, fun hkk => ?_, rfl, exec_frame (i := .rnd x kk) rfl⟩
  · rw [hx, BitVec.getLsbD_and, hj, Bool.and_false]
  · rw [hx, hkk]
    exact BitVec.and_allOnes

/-! ### The instructions with a flag -/

/-- The flag of a condition is 1 exactly when the condition holds (R140). -/
theorem flagByte_decide (p : Prop) [Decidable p] : flagByte (decide p) = if p then 1#8 else 0#8 :=
  if_congr decide_eq_true_iff rfl rfl

/-- The difference of bytes is modulo 256 (R149, R151). -/
theorem byte_sub_toNat (a b : Byte) : (a - b).toNat = (a.toNat + 256 - b.toNat) % 256 := by
  have hb := b.isLt
  rw [BitVec.toNat_sub]
  omega

/-- Settles O25: the sum and then the carry, the flag winning. -/
theorem addWritesSumThenCarry : Obligations.AddWritesSumThenCarry := by
  intro x y s
  refine ⟨_, rfl, ?_, fun hx => ?_, Frame.setResultFlag ..⟩
  · rw [State.setResultFlag_flag, carryFlag, flagByte_decide]
  · rw [State.setResultFlag_result _ _ _ hx, BitVec.toNat_add]

/-- What SUB and SUBN do, `a` and `b` being the operands in their order (R149, R151). -/
theorem subtract_writes_difference_then_noBorrow {i : Instr} {s : State} {x : Reg} {a b : Byte}
    (h : exec i s = .next (s.setResultFlag x (a - b) (noBorrowFlag a b))) :
    ∃ t, exec i s = .next t ∧ t.getV regVF = (if a.toNat ≥ b.toNat then 1#8 else 0#8) ∧
      (x ≠ regVF → (t.getV x).toNat = (a.toNat + 256 - b.toNat) % 256) ∧
      Frame { v := fun r => r == x || r == regVF } s t := by
  refine ⟨_, h, ?_, fun hx => ?_, Frame.setResultFlag ..⟩
  · rw [State.setResultFlag_flag, noBorrowFlag, flagByte_decide]
  · rw [State.setResultFlag_result _ _ _ hx, byte_sub_toNat]

/-- Settles O26: the two are one subtraction with its operands in either order. -/
theorem subtractsWriteDifferenceThenNoBorrow : Obligations.SubtractsWriteDifferenceThenNoBorrow := fun _ _ _ =>
  ⟨subtract_writes_difference_then_noBorrow rfl, subtract_writes_difference_then_noBorrow rfl⟩

/-- Settles O29: by what O25 and O26 say of the two instructions, SUB takes the unchanged `V[y]` from the sum modulo
256, which is below `V[y]` exactly when the addition carried. -/
theorem addThenSubtractRestores : Obligations.AddThenSubtractRestores := by
  intro x y s hxy hx hy
  obtain ⟨t, hadd, -, hsum, hst⟩ := addWritesSumThenCarry x y s
  obtain ⟨⟨u, hsub, hflag, hdiff, htu⟩, -⟩ := subtractsWriteDifferenceThenNoBorrow x y t
  have hty : t.getV y = s.getV y := hst.v y (by simp [hxy.symm, hy])
  replace hsum := hsum hx
  replace hdiff := hdiff hx
  rw [hty] at hflag hdiff
  have hsx := (s.getV x).isLt
  have hsy := (s.getV y).isLt
  have hux : u.getV x = s.getV x := BitVec.eq_of_toNat_eq (by omega)
  have hborrow : (t.getV x).toNat ≥ (s.getV y).toNat ↔ ¬ (s.getV x).toNat + (s.getV y).toNat > 255 := by omega
  refine ⟨t, u, hadd, hsub, hux, ?_, { hst.trans htu with v := fun r hr => ?_ }⟩
  · rw [hflag, if_congr hborrow rfl rfl, ite_not]
  · by_cases hrx : r = x
    · rw [hrx, hux]
    · exact (hst.trans htu).v r (by simpa [hrx] using hr)

end Sys2Proof.Machine
end

section
/-! PROOFS. The index-register and memory instructions of 42_index_memory.md R171 to R176. -/

namespace Sys2Proof.Machine

/-! ### The instructions that set `I` -/

/-- Settles O31: the pattern is the encoder's word, and the address is zero-extended. -/
theorem loadIndexSetsI : Obligations.LoadIndexSetsI := fun nnn s =>
  ⟨decodeWord_encode (.ldI nnn) rfl, s.setI (addr16 nnn), rfl, addr16_toNat nnn, exec_frame (i := .ldI nnn) rfl⟩

/-- A register taken as a 16-bit operand keeps its value (R172, R173). -/
theorem State.getV16_toNat (s : State) (x : Reg) : (s.getV16 x).toNat = (s.getV x).toNat :=
  BitVec.toNat_setWidth_of_le (by decide)

/-- The glyph address is the sum of the natural numbers: it fits 16 bits for the whole byte (R173, D23). -/
theorem State.glyphAddr_toNat (s : State) (x : Reg) : (s.glyphAddr x).toNat = 0x050 + 5 * (s.getV x).toNat := by
  have hv := (s.getV x).isLt
  rw [State.glyphAddr, BitVec.toNat_add, BitVec.toNat_mul, State.getV16_toNat, BitVec.toNat_ofNat, BitVec.toNat_ofNat]
  omega

/-- Settles O32: each sets `I`, to a sum modulo 65536 and to `State.glyphAddr_toNat`. -/
theorem indexArithmetic : Obligations.IndexArithmetic := by
  intro x s
  refine ⟨⟨s.setI (s.i + s.getV16 x), rfl, ?_, exec_frame (i := .addIVx x) rfl⟩,
    ⟨s.setI (s.glyphAddr x), rfl, s.glyphAddr_toNat x, exec_frame (i := .ldFVx x) rfl⟩⟩
  rw [State.setI_i, BitVec.toNat_add, State.getV16_toNat]

/-! ### The two stores -/

/-- A store of bytes changes the addresses it writes alone (20_memory.md R63). -/
theorem Frame.writeAll {touch : Touch} {s t : State} (h : Frame touch s t) {base : Nat} {bs : List Byte}
    (hm : ∀ a, base ≤ a → a < base + bs.length → touch.mem a = true) :
    Frame touch s (t.setMem (t.mem.writeAll base bs)) :=
  { h with
    mem := fun a ha => by
      have hout : ¬ (base ≤ a ∧ a < base + bs.length) := fun ⟨hlo, hhi⟩ => by simp [hm a hlo hhi] at ha
      rw [State.setMem_mem, Memory.read_writeAll, if_neg hout, h.mem a ha] }

/-- After LD B, Vx the byte at `I + k` is the decimal digit `k` from the left (R174). -/
theorem State.digit_writeAll_bcdDigits (s : State) (v : Byte) {k : Nat} (hk : k < 3) :
    ((s.mem.writeAll s.i.toNat (bcdDigits v)).read (s.i.toNat + k)).toNat = v.toNat / 10 ^ (2 - k) % 10 := by
  rw [State.read_writeAll_bcdDigits, State.byteAfterStore_of_mem _ _ _ _ (by omega), Nat.add_sub_cancel_left,
    BitVec.toNat_ofNat]
  omega

/-- After LD [I], Vx the byte at `I + r` is `V[r]`, for `r` up to `x` (R175). -/
theorem State.register_writeAll_regsUpTo (s : State) {x r : Reg} (hr : r.toNat ≤ x.toNat) :
    (s.mem.writeAll s.i.toNat (s.regsUpTo x)).read (s.i.toNat + r.toNat) = s.getV r := by
  rw [State.read_writeAll_regsUpTo, State.byteAfterStore_of_mem _ _ _ _ (by omega), Nat.add_sub_cancel_left,
    BitVec.ofNat_toNat, BitVec.setWidth_eq]

/-- Settles O33: the digits are `State.digit_writeAll_bcdDigits`; a byte has no digit above the hundreds. -/
theorem decimalDigitsAreStored : Obligations.DecimalDigitsAreStored := by
  intro x s hi
  have hundreds : (s.getV x).toNat / 10 ^ 2 % 10 = (s.getV x).toNat / 100 := by
    have hv := (s.getV x).isLt
    omega
  refine ⟨_, exec_ldBVx_eq_next x s hi, (s.digit_writeAll_bcdDigits _ (k := 0) (by decide)).trans hundreds,
    s.digit_writeAll_bcdDigits _ (k := 1) (by decide), ?_, (Frame.refl _ s).writeAll fun a hlo hhi => ?_⟩
  · rw [State.setMem_mem, State.digit_writeAll_bcdDigits _ _ (by decide), pow_zero, Nat.div_one]
  · replace hhi : a < s.i.toNat + 3 := hhi
    exact decide_eq_true (by omega)

/-- Settles O34: the bytes are `State.register_writeAll_regsUpTo`, and the dump writes `x + 1` addresses. -/
theorem registersAreDumped : Obligations.RegistersAreDumped := by
  intro x s hi
  refine ⟨_, exec_ldMemVx_eq_next x s hi, fun r hr => s.register_writeAll_regsUpTo hr,
    (Frame.refl _ s).writeAll fun a hlo hhi => ?_⟩
  rw [State.regsUpTo_length] at hhi
  exact decide_eq_true (by omega)

/-! ### The load, and a dump undone by it -/

/-- LD Vx, [I] with its range inside memory (R176). -/
theorem exec_ldVxMem_eq_next (x : Reg) (s : State) (h : s.i.toNat + x.toNat ≤ 4095) :
    exec (.ldVxMem x) s =
      .next (s.setRegsFrom 0 ((List.range (x.toNat + 1)).map fun k => s.mem.read (s.i.toNat + k))) := by
  show s.orRaise ((s.loadBytes s.base (x.toNat + 1)).map (s.setRegsFrom 0)) = _
  rw [State.loadBytes_eq, if_pos (.inr (by rw [State.base]; omega))]
  rfl

/-- A load of `V[0]` to `V[x]` gives each of them its byte (R176). -/
theorem State.getV_setRegsFrom_range (s : State) (f : Nat → Byte) {x r : Reg} (hr : r.toNat ≤ x.toNat) :
    (s.setRegsFrom 0 ((List.range (x.toNat + 1)).map f)).getV r = f r.toNat := by
  have hx := x.isLt
  have hlen : ((List.range (x.toNat + 1)).map f).length = x.toNat + 1 := by rw [List.length_map, List.length_range]
  rw [State.getV_setRegsFrom _ _ _ (by omega), if_pos (by omega), Nat.sub_zero,
    List.getD_eq_getElem _ _ (by omega), List.getElem_map, List.getElem_range]

/-- Settles O35: the bytes are `State.getV_setRegsFrom_range`, and the load writes the registers 0 to `x`. -/
theorem registersAreLoaded : Obligations.RegistersAreLoaded := by
  intro x s hi
  refine ⟨_, exec_ldVxMem_eq_next x s hi, fun r hr => s.getV_setRegsFrom_range _ hr,
    (Frame.refl _ s).setRegsFrom fun j _ hj => ?_⟩
  rw [List.length_map, List.length_range] at hj
  have hmod : (BitVec.ofNat 4 j).toNat = j % 16 := BitVec.toNat_ofNat j 4
  exact decide_eq_true (by omega)

/-- Settles O36: by what O34 and O35 say of each, the load finds at `I + r` the byte that the dump stored there, and
it writes no register above `x`. -/
theorem dumpThenLoadRestores : Obligations.DumpThenLoadRestores := by
  intro x s hi
  obtain ⟨t, hdump, hstored, hst⟩ := registersAreDumped x s hi
  refine ⟨t, hdump, fun w => ?_⟩
  have hti : t.i = s.i := hst.i rfl
  obtain ⟨u, hload, hloaded, htu⟩ := registersAreLoaded x { t with v := w } (by rw [hti]; exact hi)
  refine ⟨u, hload, fun r => ?_⟩
  split
  · next hr => rw [hloaded r hr, hti, hstored r hr]
  · next hr => exact htu.v r (decide_eq_false hr)

end Sys2Proof.Machine
end

section
/-! PROOFS. The display instructions of 43_display.md R190 to R193. -/

namespace Sys2Proof.Machine

/-- Settles O38: CLS stores the blank bitmap and sets DIRTY. -/
theorem clearBlanksTheDisplay : Obligations.ClearBlanksTheDisplay := fun _ =>
  ⟨_, rfl, Display.pixel_blank, rfl, exec_frame (i := .cls) rfl⟩

/-! ### What a sprite covers and collides with -/

theorem rowCovers_range_iff (x0 : Nat) (b : Byte) (px : Fin 64) :
    rowCovers x0 b (List.range 8) px = true ↔ ∃ c < 8, spriteBit b c = true ∧ px = spriteColumn x0 c := by
  simp only [rowCovers, List.any_eq_true, List.mem_range, Bool.and_eq_true, decide_eq_true_eq]

/-- A sprite covers a pixel exactly when a 1 bit of one of its bytes lands there (R190). -/
theorem spriteCovers_iff (x0 y0 r : Nat) (bs : List Byte) (px : Fin 64) (py : Fin 32) :
    spriteCovers x0 y0 r bs px py = true ↔
      ∃ j b, bs[j]? = some b ∧ (∃ c < 8, spriteBit b c = true ∧ px = spriteColumn x0 c) ∧
        py = spriteRow y0 (r + j) := by
  induction bs generalizing r with
  | nil => simp [spriteCovers]
  | cons b bs ih =>
    rw [spriteCovers, Bool.or_eq_true, Bool.and_eq_true, decide_eq_true_eq, rowCovers_range_iff, ih (r + 1)]
    conv_rhs => rw [← Nat.or_exists_add_one]
    simp only [List.getElem?_cons_zero, List.getElem?_cons_succ, Option.some.injEq, exists_eq_left', Nat.add_zero,
      Nat.add_assoc, Nat.add_comm 1]

/-- A sprite collides exactly when it covers a lit pixel (R192, C5). -/
theorem spriteCollides_iff (d : Display) (x0 y0 r : Nat) (bs : List Byte) :
    spriteCollides d x0 y0 r bs = true ↔
      ∃ px py, spriteCovers x0 y0 r bs px py = true ∧ d.pixel px py = true := by
  induction bs generalizing r with
  | nil => simp [spriteCollides, spriteCovers]
  | cons b bs ih =>
    have hrow : ((List.range 8).any fun c => spriteBit b c && d.pixel (spriteColumn x0 c) (spriteRow y0 r)) = true ↔
        ∃ px py, (rowCovers x0 b (List.range 8) px = true ∧ py = spriteRow y0 r) ∧ d.pixel px py = true := by
      simp only [List.any_eq_true, List.mem_range, Bool.and_eq_true, rowCovers_range_iff]
      constructor
      · rintro ⟨c, hc, hbit, hlit⟩
        exact ⟨_, _, ⟨⟨c, hc, hbit, rfl⟩, rfl⟩, hlit⟩
      · rintro ⟨_, _, ⟨⟨c, hc, hbit, rfl⟩, rfl⟩, hlit⟩
        exact ⟨c, hc, hbit, hlit⟩
    simp only [spriteCollides, spriteCovers, Bool.or_eq_true, Bool.and_eq_true, decide_eq_true_eq, or_and_right,
      exists_or, hrow, ih (r + 1)]

/-! ### DRW with its sprite inside memory -/

/-- The bytes DRW reads: `n` of them from `I` upward (R190). -/
def State.spriteBytes (s : State) (n : Nibble) : List Byte :=
  (List.range n.toNat).map fun r => s.mem.read (s.i.toNat + r)

theorem State.spriteBytes_length_le (s : State) (n : Nibble) : (s.spriteBytes n).length ≤ 32 := by
  have hn := n.isLt
  rw [State.spriteBytes, List.length_map, List.length_range]
  omega

/-- The pixels the bytes of DRW cover are the pixels its sprite hits (R190, R192). -/
theorem State.spriteCovers_spriteBytes (s : State) (x y : Reg) (n : Nibble) (px : Fin 64) (py : Fin 32) :
    spriteCovers (s.getV x).toNat (s.getV y).toNat 0 (s.spriteBytes n) px py = true ↔ s.spriteHits x y n px py := by
  have hbyte (j : Nat) (b : Byte) :
      (s.spriteBytes n)[j]? = some b ↔ j < n.toNat ∧ s.mem.read (s.i.toNat + j) = b := by
    simp [State.spriteBytes, List.getElem?_eq_some_iff]
  simp only [spriteCovers_iff, hbyte, Nat.zero_add]
  constructor
  · rintro ⟨r, b, ⟨hr, rfl⟩, ⟨c, hc, hbit, rfl⟩, rfl⟩
    exact ⟨r, c, hr, hc, hbit, rfl, rfl⟩
  · rintro ⟨r, c, hr, hc, hbit, hx, hy⟩
    exact ⟨r, _, ⟨hr, rfl⟩, ⟨c, hc, hbit, Fin.ext hx.symm⟩, Fin.ext hy.symm⟩

/-- DRW with its bytes inside memory, or with no row (R192, D4). -/
theorem exec_drw_eq_next (x y : Reg) (n : Nibble) (s : State) (h : n.toNat = 0 ∨ s.i.toNat + n.toNat - 1 ≤ 4095) :
    exec (.drw x y n) s = .next (s.drawSprite x y (s.spriteBytes n)) := by
  show s.orRaise ((s.loadBytes s.base n.toNat).map (s.drawSprite x y)) = _
  rw [State.loadBytes_eq, if_pos (by rw [State.base]; omega)]
  rfl

/-- DRW changes the bitmap, VF and DIRTY alone (R192). -/
theorem Frame.drawSprite (s : State) (x y : Reg) (bytes : List Byte) :
    Frame { v := fun r => r == regVF, disp := true, dirty := true } s (s.drawSprite x y bytes) :=
  (((Frame.refl _ s).setDisp _ rfl).setV _ rfl).setDirty _ rfl

/-- DRW inverts the pixels its sprite covers (R192). -/
theorem State.drawSprite_pixel (s : State) (x y : Reg) (bytes : List Byte) (h : bytes.length ≤ 32) (px : Fin 64)
    (py : Fin 32) :
    (s.drawSprite x y bytes).disp.pixel px py =
      (s.disp.pixel px py ^^ spriteCovers (s.getV x).toNat (s.getV y).toNat 0 bytes px py) :=
  blit_pixel _ _ 0 bytes h (s.disp, false) px py

/-- DRW's flag is the collision with the bitmap before the draw, at the coordinates before it (R192, C5, D11). -/
theorem State.drawSprite_flag (s : State) (x y : Reg) (bytes : List Byte) (h : bytes.length ≤ 32) :
    (s.drawSprite x y bytes).getV regVF =
      flagByte (spriteCollides s.disp (s.getV x).toNat (s.getV y).toNat 0 bytes) := by
  have hhit := blit_hit (s.getV x).toNat (s.getV y).toNat 0 bytes h (s.disp, false)
  rw [Bool.false_or] at hhit
  rw [← hhit]
  exact State.getV_setV_same _ _ _

theorem flagByte_eq_one_iff (c : Bool) : flagByte c = 1#8 ↔ c = true := by
  cases c <;> decide

theorem flagByte_zero_or_one (c : Bool) : flagByte c = 0#8 ∨ flagByte c = 1#8 := by
  cases c <;> decide

/-- Settles O39: the covered pixels, which the blit inverts and tests for a collision, are the pixels the sprite
hits. -/
theorem drawInvertsTheSpritePixels : Obligations.DrawInvertsTheSpritePixels := by
  intro x y n s hn
  have hlen := s.spriteBytes_length_le n
  refine ⟨_, exec_drw_eq_next x y n s hn, fun px py hit => ?_, fun px py hmiss => ?_, ?_, ?_, rfl,
    Frame.drawSprite ..⟩
  · rw [State.drawSprite_pixel _ _ _ _ hlen, (s.spriteCovers_spriteBytes ..).2 hit, Bool.xor_true]
  · rw [← s.spriteCovers_spriteBytes, Bool.not_eq_true] at hmiss
    rw [State.drawSprite_pixel _ _ _ _ hlen, hmiss, Bool.xor_false]
  · simp only [State.drawSprite_flag _ _ _ _ hlen, flagByte_eq_one_iff, spriteCollides_iff,
      State.spriteCovers_spriteBytes]
  · rw [State.drawSprite_flag _ _ _ _ hlen]
    exact flagByte_zero_or_one _

/-! ### The same sprite drawn twice -/

/-- Where a sprite lands depends on `V[x]`, `V[y]`, `I` and memory alone (R190). -/
theorem Frame.spriteHits_iff {touch : Touch} {s t : State} (h : Frame touch s t) {x y : Reg}
    (hx : touch.v x = false) (hy : touch.v y = false) (hi : touch.i = false) (hm : ∀ a, touch.mem a = false)
    (n : Nibble) (px : Fin 64) (py : Fin 32) : t.spriteHits x y n px py ↔ s.spriteHits x y n px py := by
  simp only [State.spriteHits, h.v x hx, h.v y hy, h.i hi, fun a => h.mem a (hm a)]

/-- A sprite hits some pixel exactly when one of its bytes has a 1 bit (C9). -/
theorem State.exists_spriteHits_iff (s : State) (x y : Reg) (n : Nibble) :
    (∃ px py, s.spriteHits x y n px py) ↔
      ∃ r j, r < n.toNat ∧ j < 8 ∧ (s.mem.read (s.i.toNat + r)).getLsbD j = true := by
  constructor
  · rintro ⟨px, py, r, c, hr, hc, hbit, -, -⟩
    exact ⟨r, 7 - c, hr, by omega, hbit⟩
  · rintro ⟨r, j, hr, hj, hbit⟩
    have hj' : 7 - (7 - j) = j := by omega
    exact ⟨spriteColumn _ (7 - j), spriteRow _ r, r, 7 - j, hr, by omega, by rwa [hj'], rfl, rfl⟩

/-- Settles O40: by what O39 says of each draw, the second hits the pixels of the first.  From a blank bitmap the lit
pixels are then those the sprite hits. -/
theorem drawingTwiceRestores : Obligations.DrawingTwiceRestores := by
  intro x y n s hx hy hn
  obtain ⟨t, hdraw, hinv, hkeep, hflag, hbit, -, hst⟩ := drawInvertsTheSpritePixels x y n s hn
  have hi : t.i = s.i := hst.i rfl
  obtain ⟨u, hdraw', hinv', hkeep', hflag', -, -, -⟩ := drawInvertsTheSpritePixels x y n t (by rw [hi]; exact hn)
  have hsame : ∀ px py, t.spriteHits x y n px py ↔ s.spriteHits x y n px py :=
    hst.spriteHits_iff (beq_false_of_ne hx) (beq_false_of_ne hy) rfl (fun _ => rfl) n
  simp only [hsame] at hinv' hkeep' hflag'
  refine ⟨t, u, hdraw, hdraw', fun px py => ?_, fun hblank => ⟨?_, ?_⟩⟩
  · by_cases hit : s.spriteHits x y n px py
    · rw [hinv' px py hit, hinv px py hit, Bool.not_not]
    · rw [hkeep' px py hit, hkeep px py hit]
  · refine hbit.resolve_right fun h1 => ?_
    obtain ⟨px, py, -, hlit⟩ := hflag.1 h1
    rw [hblank px py] at hlit
    cases hlit
  · have hlit : ∀ px py, s.spriteHits x y n px py → t.disp.pixel px py = true := fun px py hit => by
      rw [hinv px py hit, hblank px py, Bool.not_false]
    rw [hflag', ← s.exists_spriteHits_iff x y n]
    exact exists₂_congr fun px py => and_iff_left_of_imp (hlit px py)

end Sys2Proof.Machine
end

section
/-! PROOFS. The keyboard and timer instructions of 44_keyboard_timers.md R201 to R206, and the Steps and key events of
a key wait. -/

namespace Sys2Proof.Machine

/-! ### The key skips -/

/-- The key number is the low nibble of the byte, as a number (R201, R202). -/
theorem State.keyOperand_eq (s : State) (x : Reg) : s.keyOperand x = BitVec.ofNat 4 ((s.getV x).toNat % 16) :=
  BitVec.eq_of_toNat_eq (by simp [State.keyOperand])

/-- Settles O41: each is a skip on the flag of the key that the low nibble names. -/
theorem keySkipsTestTheLowNibble : Obligations.KeySkipsTestTheLowNibble := by
  intro x s
  rw [← State.keyOperand_eq]
  exact ⟨decodeWord_encode (.skp x) rfl, decodeWord_encode (.sknp x) rfl, skip_adds_two rfl Iff.rfl,
    skip_adds_two rfl (Bool.not_eq_true' _).to_iff⟩

/-! ### The timers -/

/-- The tone sounds exactly while the sound timer is not 0 (R35). -/
theorem State.tone_iff (s : State) : s.tone = true ↔ s.st ≠ 0#8 := by
  rw [State.tone, decide_eq_true_iff, Nat.pos_iff_ne_zero, ne_eq, ne_eq, ← BitVec.toNat_inj]
  rfl

/-- Settles O42: each transfer writes one register or one timer, and the tone is a function of the sound timer. -/
theorem timerTransfers : Obligations.TimerTransfers := fun x s =>
  ⟨⟨_, rfl, s.getV_setV_same x s.dt, exec_frame (i := .ldVxDt x) rfl⟩,
    ⟨_, rfl, rfl, exec_frame (i := .ldDtVx x) rfl⟩,
    ⟨_, rfl, rfl, (s.setSt (s.getV x)).tone_iff, exec_frame (i := .ldStVx x) rfl⟩⟩

/-! ### The key wait: its three effects -/

section
variable {s : State} {k : Nibble} (x : Reg)

/-- With no key to capture, or the captured key still down, the instruction repeats (R204). -/
theorem exec_ldVxK_repeats
    (h : (s.wait = .idle ∧ ∀ j, s.keyDown j = false) ∨ ∃ j, s.wait = .keyCaptured j ∧ s.keyDown j = true) :
    exec (.ldVxK x) s = .next s.rewind :=
  (execLdVxK_eq_next s _ x).2 (.inr (.inl ⟨h.imp_left (And.imp_right s.lowestKeyDown_eq_none.2), rfl⟩))

/-- From Idle the least key down is captured, and the instruction repeats (R204, C4). -/
theorem exec_ldVxK_captures (hw : s.wait = .idle) (hk : s.keyDown k = true)
    (hlow : ∀ j, j.toNat < k.toNat → s.keyDown j = false) :
    exec (.ldVxK x) s = .next (s.setWait (.keyCaptured k)).rewind :=
  (execLdVxK_eq_next s _ x).2 (.inl ⟨hw, k, (s.lowestKeyDown_eq_some k).2 ⟨hk, hlow⟩, rfl⟩)

/-- The captured key is committed once it is up, and the instruction is passed (R204). -/
theorem exec_ldVxK_commits (hw : s.wait = .keyCaptured k) (hk : s.keyDown k = false) :
    exec (.ldVxK x) s = .next ((s.setV x (keyValue k)).setWait .idle) :=
  (execLdVxK_eq_next s _ x).2 (.inr (.inr ⟨k, hw, hk, rfl⟩))

end

/-- The committed byte is the key's number (R204). -/
theorem keyValue_toNat (k : Nibble) : (keyValue k).toNat = k.toNat :=
  BitVec.toNat_setWidth_of_le (by decide)

/-- Settles O43: in each of the four cases the answer is the one effect the wait has there. -/
theorem keyWaitFollowsItsStateMachine : Obligations.KeyWaitFollowsItsStateMachine := by
  intro x s
  obtain ⟨t, ht⟩ := exec_answers (.ldVxK x) s
  have answer : ∀ u, exec (.ldVxK x) s = .next u → t = u := fun u hu => Host.Outcome.next.inj (ht.symm.trans hu)
  refine ⟨decodeWord_encode (.ldVxK x) rfl, t, ht, fun hw hk => ?_, fun k hw hk hlow => ?_, fun k hw hk => ?_,
    fun k hw hk => ?_⟩
  · obtain rfl := answer _ (exec_ldVxK_repeats x (.inl ⟨hw, hk⟩))
    exact ⟨hw, rfl, (Frame.refl _ s).setPc _ rfl⟩
  · obtain rfl := answer _ (exec_ldVxK_captures x hw hk hlow)
    exact ⟨rfl, rfl, ((Frame.refl _ s).setWait _ rfl).setPc _ rfl⟩
  · obtain rfl := answer _ (exec_ldVxK_repeats x (.inr ⟨k, hw, hk⟩))
    exact ⟨hw, rfl, (Frame.refl _ s).setPc _ rfl⟩
  · obtain rfl := answer _ (exec_ldVxK_commits x hw hk)
    refine ⟨?_, rfl, rfl, ((Frame.refl _ s).setV _ (beq_self_eq_true x)).setWait _ rfl⟩
    rw [State.setWait_getV, State.getV_setV_same, keyValue_toNat]

/-! ### The key wait: its Steps -/

/-- The rewind takes back the advance (R204). -/
theorem State.rewind_advance (s : State) : s.advance.rewind = s := by
  show s.setPc (s.pc + 2#16 - 2#16) = s
  rw [BitVec.add_sub_cancel]
  rfl

/-- No fault is latched and the next Step executes LD Vx, K: what a key wait's Steps and key events keep. -/
structure State.AtKeyWait (s : State) (x : Reg) : Prop where
  running : s.fault = none
  fetchable : s.pc.toNat ≤ 4094
  word : decodeWord (s.wordAt s.pc.toNat) = .ok (.ldVxK x)

section
variable {s : State} {x : Reg} {k : Nibble}

theorem State.AtKeyWait.setKey (h : s.AtKeyWait x) (k : Nibble) (b : Bool) : (s.setKey k b).AtKeyWait x :=
  ⟨h.running, h.fetchable, h.word⟩

theorem State.AtKeyWait.setWait (h : s.AtKeyWait x) (w : KeyWait) : (s.setWait w).AtKeyWait x :=
  ⟨h.running, h.fetchable, h.word⟩

/-- The event Step leaves what LD Vx, K answers from the advanced state (10_state.md R31). -/
theorem State.AtKeyWait.step_eq (h : s.AtKeyWait x) {t : State} (ht : exec (.ldVxK x) s.advance = .next t) :
    applyEvent s .step = t := by
  have hs : step s = .next t :=
    (stepRunsTheDecodedInstruction s _ h.running h.fetchable h.word).trans ht
  show s.stepEvent.1 = t
  rw [State.stepEvent, hs]

/-- A Step from Idle with no key down changes nothing (R204). -/
theorem State.AtKeyWait.step_repeats (h : s.AtKeyWait x) (hw : s.wait = .idle) (hk : ∀ j, s.keyDown j = false) :
    applyEvent s .step = s :=
  (h.step_eq (exec_ldVxK_repeats x (.inl ⟨hw, hk⟩))).trans s.rewind_advance

/-- A Step from Idle with a key down captures the least such key, at the same PC (R204, C4). -/
theorem State.AtKeyWait.step_captures (h : s.AtKeyWait x) (hw : s.wait = .idle) (hk : s.keyDown k = true)
    (hlow : ∀ j, j.toNat < k.toNat → s.keyDown j = false) :
    applyEvent s .step = s.setWait (.keyCaptured k) :=
  (h.step_eq (exec_ldVxK_captures x hw hk hlow)).trans (s.setWait (.keyCaptured k)).rewind_advance

/-- A Step with the captured key up commits it and passes the instruction (R204). -/
theorem State.AtKeyWait.step_commits (h : s.AtKeyWait x) (hw : s.wait = .keyCaptured k) (hk : s.keyDown k = false) :
    applyEvent s .step = (s.advance.setV x (keyValue k)).setWait .idle :=
  h.step_eq (exec_ldVxK_commits x hw hk)

end

/-- Settles O44, by induction on the number of Steps, each of which leaves the state as it is. -/
theorem keyWaitWithNoKeyRepeats : Obligations.KeyWaitWithNoKeyRepeats := by
  intro x s n hf hw hk hp hd
  have hstep : applyEvent s .step = s := State.AtKeyWait.step_repeats ⟨hf, hp, hd⟩ hw hk
  induction n with
  | zero => rfl
  | succ n ih => rw [List.replicate_succ, runEvents, hstep, ih]

/-- A key that was up is up again after its press and release (R38). -/
theorem State.setKey_press_release {s : State} {k : Nibble} (hk : s.keyDown k = false) :
    (s.setKey k true).setKey k false = s := by
  have hkeys : (s.keys.set k.toNat true).set k.toNat false = s.keys := by
    rw [Vector.set_set, ← hk]
    exact Vector.set_getElem_self _
  show { s with keys := (s.keys.set k.toNat true).set k.toNat false } = s
  rw [hkeys]

/-- A key pressed and released across two Steps, from Idle with all keys up: the first Step captures it at the same PC,
the second commits it, and the keys and the wait are in the end what they were (R204, R38, C4). -/
theorem State.AtKeyWait.press_step_release_step {s : State} {x : Reg} (h : s.AtKeyWait x) (hw : s.wait = .idle)
    (hk : ∀ j, s.keyDown j = false) (k : Nibble) :
    runEvents s [.setKey k true, .step, .setKey k false, .step] = s.advance.setV x (keyValue k) := by
  have hcapture : applyEvent (s.setKey k true) .step = (s.setKey k true).setWait (.keyCaptured k) := by
    refine (h.setKey k true).step_captures hw ?_ fun j hj => ?_
    · rw [State.keyDown_setKey, if_pos rfl]
    · have hjk : j ≠ k := fun e => hj.ne (congrArg BitVec.toNat e)
      rw [State.keyDown_setKey, if_neg hjk, hk]
  have hrelease : ((s.setKey k true).setWait (.keyCaptured k)).setKey k false = s.setWait (.keyCaptured k) :=
    congrArg (State.setWait · (.keyCaptured k)) (State.setKey_press_release (hk k))
  have hcommit : applyEvent (s.setWait (.keyCaptured k)) .step = (s.advance.setV x (keyValue k)).setWait .idle :=
    (h.setWait _).step_commits rfl (hk k)
  calc runEvents s [.setKey k true, .step, .setKey k false, .step]
      = applyEvent ((applyEvent (s.setKey k true) .step).setKey k false) .step := rfl
    _ = (s.advance.setV x (keyValue k)).setWait .idle := by rw [hcapture, hrelease, hcommit]
    _ = s.advance.setV x (keyValue k) := by rw [← hw]; rfl

/-- Settles O45: what the four events leave is the state with PC advanced and the key's number in `V[x]`. -/
theorem keyPressAndReleaseCommits : Obligations.KeyPressAndReleaseCommits := by
  intro x k s hf hw hk hp hd
  rw [State.AtKeyWait.press_step_release_step ⟨hf, hp, hd⟩ hw hk k, State.getV_setV_same]
  exact ⟨keyValue_toNat k, rfl, ((Frame.refl _ s).setPc _ rfl).setV _ (beq_self_eq_true x)⟩

end Sys2Proof.Machine
end

section
/-! PROOFS. The faults of 60_exceptions.md: where the execute phase raises one (R230), what a raised fault leaves
(R222 to R226), the report of a Step (R220), and what the host can do to a halted core (R228). -/

namespace Sys2Proof.Machine

/-! ### The execute phase: the fault of the table, or the effect with the latch kept -/

/-- A load from `I` upward that leaves memory is MemoryOutOfRange alone, whatever is made of its bytes (20_memory.md
R62, R76). -/
theorem State.orRaise_loadBytes_beyond (s : State) {count : Nat} (f : List Byte → State) (hc : 0 < count)
    (h : 4096 < s.i.toNat + count) :
    s.orRaise ((s.loadBytes s.base count).map f) = .next (s.raise .memoryOutOfRange) := by
  rw [State.loadBytes_eq, if_neg (by rw [State.base]; omega)]
  rfl

/-- A store from `I` upward that leaves memory is MemoryOutOfRange alone (R63, R76). -/
theorem State.orRaise_storeBytes_beyond (s : State) {bs : List Byte} (hc : 0 < bs.length)
    (h : 4096 < s.i.toNat + bs.length) :
    s.orRaise (s.storeBytes s.base bs) = .next (s.raise .memoryOutOfRange) := by
  rw [State.storeBytes_eq, if_neg (by rw [State.base]; omega)]
  rfl

/-- Where the table gives an instruction a fault, its execute phase raises that fault and does nothing else (R226,
R230). -/
theorem exec_raises {i : Instr} {s : State} {k : Fault} (h : faultOf i s = some k) :
    exec i s = .next (s.raise k) := by
  cases i with
  | call nnn =>
    obtain ⟨hfull, ⟨⟩⟩ := Option.ite_none_right_eq_some.1 h
    show s.orRaise ((s.push s.pc).map _) = _
    rw [State.push_full s s.pc hfull]
    rfl
  | ret =>
    obtain ⟨hempty, ⟨⟩⟩ := Option.ite_none_right_eq_some.1 h
    show s.orRaise s.popPc = _
    rw [State.popPc_empty s hempty]
    rfl
  | drw x y n =>
    obtain ⟨⟨hrows, hbeyond⟩, ⟨⟩⟩ := Option.ite_none_right_eq_some.1 h
    exact s.orRaise_loadBytes_beyond _ hrows (by omega)
  | ldBVx x =>
    obtain ⟨hbeyond, ⟨⟩⟩ := Option.ite_none_right_eq_some.1 h
    have hlen : (bcdDigits (s.getV x)).length = 3 := rfl
    exact s.orRaise_storeBytes_beyond (by omega) (by omega)
  | ldMemVx x =>
    obtain ⟨hbeyond, ⟨⟩⟩ := Option.ite_none_right_eq_some.1 h
    have hlen := s.regsUpTo_length x
    exact s.orRaise_storeBytes_beyond (by omega) (by omega)
  | ldVxMem x =>
    obtain ⟨hbeyond, ⟨⟩⟩ := Option.ite_none_right_eq_some.1 h
    exact s.orRaise_loadBytes_beyond _ (Nat.succ_pos _) (by omega)
  | _ => cases h

/-- Where the table gives it none, the execute phase completes, and the latch stays as it is (R230). -/
theorem exec_completes {i : Instr} {s : State} (h : faultOf i s = none) :
    ∃ t, exec i s = .next t ∧ t.fault = s.fault := by
  cases i with
  | call nnn =>
    have hroom : ¬ s.sp.val = 16 := (Option.some_ne_none _).ite_eq_right_iff.1 h
    exact ⟨_, exec_call_eq_next nnn (s.push_ok s.pc (by omega)), rfl⟩
  | ret =>
    have hused : ¬ s.sp.val = 0 := (Option.some_ne_none _).ite_eq_right_iff.1 h
    exact ⟨_, exec_ret_eq_next (s.popPc_ok (by omega)), rfl⟩
  | drw x y n =>
    have hrange : ¬ (1 ≤ n.toNat ∧ 4095 < s.i.toNat + n.toNat - 1) := (Option.some_ne_none _).ite_eq_right_iff.1 h
    exact ⟨_, exec_drw_eq_next x y n s (by omega), rfl⟩
  | ldBVx x => exact ⟨_, exec_ldBVx_eq_next x s (not_lt.1 ((Option.some_ne_none _).ite_eq_right_iff.1 h)), rfl⟩
  | ldMemVx x => exact ⟨_, exec_ldMemVx_eq_next x s (not_lt.1 ((Option.some_ne_none _).ite_eq_right_iff.1 h)), rfl⟩
  | ldVxMem x =>
    exact ⟨_, exec_ldVxMem_eq_next x s (not_lt.1 ((Option.some_ne_none _).ite_eq_right_iff.1 h)),
      State.setRegsFrom_fault ..⟩
  | _ => exact (exec_answers _ s).imp fun t ht => ⟨ht, (exec_frame ht).fault rfl⟩

/-- Settles O13: with a fault in the table the answer is the state with it latched, and with none the effect, which
keeps the clear latch. -/
theorem executeFaultsFollowTheTable : Obligations.ExecuteFaultsFollowTheTable := by
  intro i s hf
  cases hk : faultOf i s with
  | some k => exact ⟨s.raise k, exec_raises hk, rfl, fun _ => s.frame_raise k⟩
  | none =>
    obtain ⟨t, ht, hlatch⟩ := exec_completes hk
    exact ⟨t, ht, hlatch.trans hf, fun hne => absurd rfl hne⟩

/-- Settles O20: a full stack is CALL's row of the table, an empty one RET's. -/
theorem stackFaultsComeBeforeAnyChange : Obligations.StackFaultsComeBeforeAnyChange :=
  ⟨fun nnn s hfull => ⟨_, exec_raises (i := .call nnn) (if_pos hfull), rfl, s.frame_raise _⟩,
    fun s hempty => ⟨_, exec_raises (i := .ret) (if_pos hempty), rfl, s.frame_raise _⟩⟩

/-- Settles O10: the fetch is legal, so the word is looked at, and PC is advanced before it proves illegal. -/
theorem illegalWordRaisesAfterTheAdvance : Obligations.IllegalWordRaisesAfterTheAdvance := by
  intro s e hf hp hword
  have hstep : step s = .next (s.advance.raise .illegalInstruction) :=
    (runStep_of_fetch exec s hf hp).trans (runWord_of_error exec _ e s hword)
  exact ⟨_, hstep, rfl, rfl, ((Frame.refl _ s).setPc _ rfl).raise rfl _⟩

/-! ### The report of a Step -/

/-- A Step of a halted core leaves it as it is and reports the latched kind again (R220, R228). -/
theorem State.stepEvent_of_fault {s : State} {k : Fault} (h : s.fault = some k) : s.stepEvent = (s, .fault k) := by
  rw [State.stepEvent, step_of_fault h]

theorem State.reported_eq_ok_iff (s : State) : s.reported = .ok ↔ s.fault = none := by
  cases h : s.fault <;> simp [State.reported, h]

theorem State.reported_eq_fault_iff (s : State) (k : Fault) : s.reported = .fault k ↔ s.fault = some k := by
  cases h : s.fault <;> simp [State.reported, h]

/-- Every Step reports the latch of the state it leaves, of a halted core too (R220). -/
theorem State.stepEvent_report (s : State) : s.stepEvent.2 = s.stepEvent.1.reported := by
  cases hf : s.fault with
  | some k =>
    rw [State.stepEvent_of_fault hf]
    exact ((s.reported_eq_fault_iff k).2 hf).symm
  | none =>
    obtain ⟨t, ht⟩ := everyStepAnswersANextState.1 s hf
    rw [State.stepEvent, ht]

/-- Settles O14: the report is that of the state left. -/
theorem stepReportIsTheLatch : Obligations.StepReportIsTheLatch := by
  intro s
  rw [s.stepEvent_report]
  exact ⟨State.reported_eq_ok_iff _, State.reported_eq_fault_iff _⟩

/-! ### The halted core -/

/-- A Tick of a halted core changes nothing (10_state.md R37). -/
theorem State.tick_of_fault {s : State} {k : Fault} (h : s.fault = some k) : s.tick = s := by
  rw [State.tick, h]

/-- LoadProgram changes memory alone, if it loads at all (70_reset_and_hazards.md R262). -/
theorem applyEvent_loadProgram_frame (s : State) (image : List Byte) :
    Frame { mem := fun _ => true } s (applyEvent s (.loadProgram image)) := by
  simp only [applyEvent, State.loadProgram]
  by_cases hl : image.length ≤ Config.maxImage
  · rw [if_pos hl]
    exact (Frame.refl _ s).setMem _ fun _ => rfl
  · rw [if_neg hl]
    exact Frame.refl _ s

/-- On a halted core an event other than Reset can write the keys, DIRTY and memory alone (R228, D20). -/
theorem applyEvent_frame_of_fault {s : State} {k : Fault} {e : HostEvent} (h : s.fault = some k)
    (he : ∀ font fill, e ≠ .reset font fill) :
    Frame { keys := true, dirty := true, mem := fun _ => true } s (applyEvent s e) := by
  have h0 := Frame.refl { keys := true, dirty := true, mem := fun _ => true } s
  cases e with
  | reset font fill => exact absurd rfl (he font fill)
  | loadProgram image => exact { applyEvent_loadProgram_frame s image with keys := nofun, dirty := nofun }
  | step =>
    show Frame _ s s.stepEvent.1
    rwa [State.stepEvent_of_fault h]
  | tick =>
    show Frame _ s s.tick
    rwa [State.tick_of_fault h]
  | setKey j down => exact h0.setKey j down rfl
  | clearDirty => exact h0.setDirty false rfl

/-- Settles O57: the latch is not among what such an event can write. -/
theorem haltedStateIsLeftByResetAlone : Obligations.HaltedStateIsLeftByResetAlone := by
  intro s k e hk he
  have hframe := applyEvent_frame_of_fault hk he
  exact ⟨(hframe.fault rfl).trans hk, hframe⟩

end Sys2Proof.Machine
end

section
/-! PROOFS. LoadProgram and the launch state of 70_reset_and_hazards.md R262 and R263. -/

namespace Sys2Proof.Machine

/-- After a store of several bytes the address `a + j` holds byte `j` of them (20_memory.md R68). -/
theorem Memory.read_writeAll_add (m : Memory) (a : Nat) (bs : List Byte) {j : Nat} (h : j < bs.length) :
    (m.writeAll a bs).read (a + j) = bs[j] := by
  rw [Memory.read_writeAll, if_pos (by omega), Nat.add_sub_cancel_left, List.getD_eq_getElem _ _ h]

/-- An image that fits is stored from 0x200 upward (R262). -/
theorem State.loadProgram_of_fits (s : State) {image : List Byte} (h : image.length ≤ 3584) :
    s.loadProgram image = .ok (s.setMem (s.mem.writeAll 0x200 image)) := if_pos h

/-- A longer image is the load error (R232, R262). -/
theorem State.loadProgram_of_too_large (s : State) {image : List Byte} (h : 3584 < image.length) :
    s.loadProgram image = .error .imageTooLarge := if_neg (not_le.2 h)

/-- Settles O48: an image that fits is one store of bytes, and on the load error the event keeps the state. -/
theorem loadProgramCopiesOrRefuses : Obligations.LoadProgramCopiesOrRefuses := by
  refine fun s image => ⟨fun h => ?_, fun h => ?_⟩
  · have hload := s.loadProgram_of_fits h
    exact ⟨_, hload, by rw [applyEvent, hload], fun j hj => s.mem.read_writeAll_add 0x200 image hj,
      (Frame.refl _ s).writeAll fun a hlo hhi => decide_eq_true ⟨hlo, hhi⟩⟩
  · have hload := s.loadProgram_of_too_large h
    exact ⟨hload, by rw [applyEvent, hload]⟩

/-- Settles O50: by what O48 says of the load, all but the image is as O49 says Reset left it; FONT lies below 0x200. -/
theorem launchStateHoldsTheImage : Obligations.LaunchStateHoldsTheImage := by
  intro font fill image h
  obtain ⟨hpc, -, -, -, -, -, -, -, -, -, -, hfault, -, hfont, hfill⟩ :=
    resetLeavesTheInitialState State.reset font fill
  obtain ⟨t, hload, -, himage, hframe⟩ :=
    (loadProgramCopiesOrRefuses (applyEvent State.reset (.reset font fill)) image).1 h
  refine ⟨t, hload, (hframe.pc rfl).trans hpc, (hframe.fault rfl).trans hfault, himage, fun j hj => ?_,
    fun a ha hout => ?_⟩
  · rw [hframe.mem _ (decide_eq_false (by omega)), hfont j hj]
  · rw [hframe.mem a (decide_eq_false (by omega)), hfill a ha (by omega)]

end Sys2Proof.Machine
end

section
/-! PROOFS. A Step that changes nothing but the latch or nothing at all: the fetch beyond memory (20_memory.md R66), the
halted core (60_exceptions.md R220, R228), the ended state (70_reset_and_hazards.md R273); and the default memory of
Reset (10_state.md R42). -/

namespace Sys2Proof.Machine

/-! ### Steps that change nothing, or the latch alone -/

/-- Settles O9: the fetch raises the fault before the advance. -/
theorem fetchBeyondMemoryFaults : Obligations.FetchBeyondMemoryFaults := fun s hf hp =>
  ⟨_, runStep_of_bad_pc exec s hf hp, rfl, s.frame_raise _⟩

/-- Settles O11, by what Step and Tick do with a fault latched. -/
theorem haltedCoreOnlyReports : Obligations.HaltedCoreOnlyReports := fun _ _ h =>
  ⟨step_of_fault h, State.stepEvent_of_fault h, State.tick_of_fault h⟩

/-- Setting PC again undoes the advance (R31, R120). -/
theorem State.setPc_advance_pc (s : State) : s.advance.setPc s.pc = s := rfl

/-- Settles O52: the jump goes back over the advance to the PC it was fetched from. -/
theorem endedStateIsAFixedPoint : Obligations.EndedStateIsAFixedPoint := by
  rintro s ⟨hf, -, hp, nnn, hd, hself⟩
  have htarget : addr16 nnn = s.pc := BitVec.eq_of_toNat_eq ((addr16_toNat nnn).trans hself.symm)
  calc step s = exec (.jp nnn) s.advance := stepRunsTheDecodedInstruction s _ hf hp hd
    _ = .next (s.advance.setPc (addr16 nnn)) := rfl
    _ = .next s := by rw [htarget, s.setPc_advance_pc]

/-! ### The memory Reset leaves by default -/

/-- The default FONT is the two halves of R69's table, byte by byte. -/
theorem defaultFont_toList : defaultFont.toList = fontLow ++ fontHigh := by
  refine List.ext_getElem rfl fun j hj hj' => ?_
  calc defaultFont.toList[j]
    _ = (fontLow ++ fontHigh).getD j defaultFill := by
      simp only [defaultFont, Vector.getElem_toList, Vector.getElem_ofFn]
    _ = (fontLow ++ fontHigh)[j] := List.getD_eq_getElem _ _ hj'

/-- With the default FONT and MEM_FILL every byte has the value that an unlisted address reads as (R42, R69; log
entry 3). -/
theorem initialByte_default (a : Nat) : initialByte defaultFont defaultFill a = unlistedByte a := by
  rw [initialByte, unlistedByte, defaultFont_toList]

/-- So Reset with the defaults leaves a memory that lists nothing (log entry 3). -/
theorem Memory.initial_default : Memory.initial defaultFont defaultFill = [] :=
  List.filterMap_eq_nil_iff.2 fun a _ => if_pos (initialByte_default a)

/-- Settles O51: Reset differs from `State.reset` in memory and the draws alone, and the default memory lists nothing. -/
theorem resetStateHasTheDefaults : Obligations.ResetStateHasTheDefaults := by
  intro s
  rw [applyEvent, State.resetWith, Memory.initial_default]
  rfl

end Sys2Proof.Machine
end
